-- ==== Sys2Proof/Word.lean ====
section
/-! DEFINITION. The value types of the block: 32-bit words, bytes, register indices, the saved register
file and the byte memory. 00_scope.md R8, R9, R10; 10_state.md R21. -/

namespace Sys2Proof

/-- A `u32`: "every value is an unsigned 32-bit word" (00_scope.md R10). `+` on it is addition modulo 2^32. -/
abbrev Word := BitVec 32

/-- One byte of memory. -/
abbrev Byte := BitVec 8

/-- A 5-bit register index, 0 to 31 (10_state.md R21). -/
abbrev RegIdx := Fin 32

/-- RegisterFile: "an ordered, fixed-size (32-slot) array of 32-bit unsigned values" (10_state.md R21). -/
abbrev RegFile := Vector Word 32

/-- Memory: the listed bytes of the 2^32-byte address space of 20_memory.md R40, as (address, byte) pairs in the
canonical form `Memory.wf` of Machine/Memory.lean. -/
abbrev Memory := List Host.Cell

end Sys2Proof
end

