-- ==== Sys2Proof/Config.lean ====
section
/-! DEFINITION. What the spec leaves open and no data of the state fixes: the effect of an interrupt handler whose
semantics the model was not given (60_exceptions.md R153; 92_eei_decisions.md D11; 93_implementation_defined.md I3). -/

namespace Sys2Proof

/-- Everything an unknown handler may see when it is invoked. The free effect below depends on all of it, so no two
invocations are known to act alike. -/
structure HandlerCall where
  /-- which handler the interrupt capability named -/
  handler : Nat
  /-- the interrupt cause code it was indexed by -/
  code : Word
  /-- the program counter the trapped context resumes at -/
  faultingPc : Word
  /-- the saved registers when the handler is entered -/
  rf : RegFile
  /-- memory when the handler is entered -/
  mem : Memory
  /-- the model's count of free draws made so far -/
  draw : Nat
  deriving DecidableEq, Repr

/-- FREE VALUE (assumption log 8): the 32 saved registers as an unknown handler leaves them, "arbitrarily". It has no
body, so nothing can be proved of its value. -/
opaque Config.havocRegs : HandlerCall → RegFile

/-- FREE VALUE (assumption log 8): the byte stores an unknown handler makes, in order, "arbitrarily". It has no body,
so nothing can be proved of its value; any memory can result, since memory lists finitely many bytes. -/
opaque Config.havocStores : HandlerCall → List (Word × Byte)

end Sys2Proof
end

