-- ==== Sys2Proof/Machine/Datapath.lean ====
section
/-! DEFINITION. The pure functions of 40_datapath.md: the bit-field primitives (R80 to R87), the split of an address
(R90 to R93) and the shift-mask-extend datapath of loads (R94 to R97) and stores (R98 to R101). None touches state.
Every mask is computed from (offset, W); there is no per-case table (R103). -/

namespace Sys2Proof

/-! ### Bit-field primitives -/

/-- `set_bit(w, i)` (R80). -/
def setBit (w : Word) (i : Nat) : Word := w ||| (1#32 <<< i)

/-- `clear_bit(w, i)` (R81). -/
def clearBit (w : Word) (i : Nat) : Word := w &&& ~~~(1#32 <<< i)

/-- `test_bit(w, i)` (R82). -/
def testBit (w : Word) (i : Nat) : Bool := (w >>> i) &&& 1#32 == 1#32

/-- `mask(n)`: bits n-1..0 set, "`mask(n) = 2^n - 1` computed in unbounded integers" (R83). -/
def mask (n : Nat) : Word := BitVec.ofNat 32 (2 ^ n - 1)

/-- `extract(w, from_bit, num_bits)`: the field, right-aligned (R84). -/
def extract (w : Word) (fromBit numBits : Nat) : Word := (w >>> fromBit) &&& mask numBits

/-- `extract_shift(w, from_bit, num_bits, to_bit)`, for reassembling a split immediate (R85). -/
def extractShift (w : Word) (fromBit numBits toBit : Nat) : Word := extract w fromBit numBits <<< toBit

/-- `sign_extend(v, total_bits)`: the sign bit of the right-aligned field replicated into all higher bits (R86). -/
def signExtend (v : Word) (totalBits : Nat) : Word :=
  let f := v &&& mask totalBits
  if totalBits = 32 then f
  else if testBit f (totalBits - 1) then f ||| ~~~(mask totalBits)
  else f

/-- `zext_8` (R87). -/
def zext8 (v : Word) : Word := v &&& 0xFF#32

/-- `sext_8` (R87). -/
def sext8 (v : Word) : Word := signExtend v 8

/-- `zext_16` (R87). -/
def zext16 (v : Word) : Word := v &&& 0xFFFF#32

/-- `sext_16` (R87). -/
def sext16 (v : Word) : Word := signExtend v 16

/-! ### Access widths -/

/-- The three emulated access widths (20_memory.md R45). -/
inductive Width where
  | byte
  | half
  | word
  deriving DecidableEq, Repr

/-- W, the number of bytes of an access: 1, 2 or 4 (20_memory.md R45). -/
def Width.bytes : Width → Nat
  | .byte => 1
  | .half => 2
  | .word => 4

/-- 8W, the number of bits of an access. -/
def Width.bits (w : Width) : Nat := 8 * w.bytes

/-! ### Splitting an effective address -/

/-- `base = EA & 0xFFFFFFFC` (R90). -/
def baseOf (ea : Word) : Word := ea &&& 0xFFFFFFFC#32

/-- `offset = EA & 3` (R90). -/
def offsetOf (ea : Word) : Nat := (ea &&& 3#32).toNat

/-- `shift = offset * 8` (R91). -/
def shiftOf (ea : Word) : Nat := offsetOf ea * 8

/-- The requested bytes lie in two consecutive aligned words: `offset + W > 4` (R92). -/
def straddles (ea : Word) (w : Width) : Bool := decide (4 < offsetOf ea + w.bytes)

/-- `base + 4` computed without wrap; none when it overflows the address space, the AddressOverflow of R93. -/
def secondWord (base : Word) : Option Word :=
  if base = 0xFFFFFFFC#32 then none else some (base + 4#32)

/-! ### Load datapath -/

/-- Single-word extraction: `raw = w >> shift` (R94). -/
def alignSingle (w : Word) (shift : Nat) : Word := w >>> shift

/-- Straddle merge: `(lo >> shift) | (hi << (32 - shift))` (R95). -/
def mergeLoad (lo hi : Word) (shift : Nat) : Word := (lo >>> shift) ||| (hi <<< (32 - shift))

/-- Truncation to the lowest 8W bits: `t = raw & mask(8W)` (R96). -/
def truncateTo (w : Width) (raw : Word) : Word := raw &&& mask w.bits

/-- The extension policy of R97: a signed load narrower than a word sign-extends from bit 8W-1; any other leaves the
truncated value, whose higher bits are clear. -/
def extendLoad (signed : Bool) (w : Width) (t : Word) : Word :=
  if signed && decide (w.bytes < 4) then signExtend t w.bits else t

/-! ### Store datapath -/

/-- `val = x[rs2] & mask(8W)` (R98). -/
def storeValue (w : Width) (v : Word) : Word := v &&& mask w.bits

/-- Single-word store: keep every bit outside the access's bytes and put `val` into them (R99). -/
def mergeStore (word val : Word) (w : Width) (shift : Nat) : Word :=
  (word &&& ~~~(mask w.bits <<< shift)) ||| (val <<< shift)

/-- Straddle store, low word: keep the low `shift` bits and put the value's low bits above them (R100). -/
def mergeStoreLow (lo val : Word) (shift : Nat) : Word := (lo &&& mask shift) ||| (val <<< shift)

/-- `n_hi = offset + W - 4`, the number of target bytes in the high word (R101). -/
def highBytes (ea : Word) (w : Width) : Nat := offsetOf ea + w.bytes - 4

/-- Straddle store, high word: keep every bit above `8 * n_hi` and put the value's remaining high bits below
(R101, the byte-isolation reading that 90_conflicts.md C3 decides for). -/
def mergeStoreHigh (hi val : Word) (nHi shift : Nat) : Word :=
  (hi &&& ~~~(mask (8 * nHi))) ||| (val >>> (32 - shift))

end Sys2Proof
end

