-- ==== Sys2Proof/Syntax.lean ====
section
/-! DEFINITION. The eight emulated instructions, one constructor per row of spec/opcode_table.json (00_scope.md R3;
30_encoding.md R71, R72). Operands stand in the order of the assembler syntax of R76, registers by index, and the
immediate is the DecodedInstruction's: a `u32` already sign-extended from 12 bits (30_encoding.md R66, R67, R68). -/

namespace Sys2Proof

inductive Instr where
  /-- `lb rd, imm(rs1)`: load byte, signed (R111). -/
  | lb (rd rs1 : RegIdx) (imm : Word)
  /-- `lh rd, imm(rs1)`: load halfword, signed (R112). -/
  | lh (rd rs1 : RegIdx) (imm : Word)
  /-- `lw rd, imm(rs1)`: load word (R113). -/
  | lw (rd rs1 : RegIdx) (imm : Word)
  /-- `lbu rd, imm(rs1)`: load byte, unsigned (R114). -/
  | lbu (rd rs1 : RegIdx) (imm : Word)
  /-- `lhu rd, imm(rs1)`: load halfword, unsigned (R115). -/
  | lhu (rd rs1 : RegIdx) (imm : Word)
  /-- `sb rs2, imm(rs1)`: store byte (R131). -/
  | sb (rs2 rs1 : RegIdx) (imm : Word)
  /-- `sh rs2, imm(rs1)`: store halfword (R132). -/
  | sh (rs2 rs1 : RegIdx) (imm : Word)
  /-- `sw rs2, imm(rs1)`: store word (R133). -/
  | sw (rs2 rs1 : RegIdx) (imm : Word)
  deriving DecidableEq, Repr

end Sys2Proof
end

