-- ==== Sys2Proof/Decode.lean ====
section
/-! DEFINITION. The instruction word: the field decoders of 30_encoding.md R63 to R69, the opcode and function-select
maps R70 to R75, and the encoder of R77. Decoding is total over all 2^32 words and refuses by name. -/

namespace Sys2Proof

/-! ### Opcodes (R70; general knowledge of the spec's own, 92_eei_decisions.md D2) -/

/-- LOAD = 0b0000011 (R70). -/
def opcodeLoad : Word := 0b0000011#32

/-- STORE = 0b0100011 (R70). -/
def opcodeStore : Word := 0b0100011#32

/-! ### Field decoders -/

/-- `opcode = instr[6:0]` (R63). -/
def opcodeOf (instr : Word) : Word := extract instr 0 7

/-- `funct3 = instr[14:12]` (R63). -/
def funct3Of (instr : Word) : Word := extract instr 12 3

/-- A 5-bit register field at `lo` as an index (R63, R64, R65). -/
def regField (instr : Word) (lo : Nat) : RegIdx := Fin.ofNat 32 (extract instr lo 5).toNat

/-- `rs1 = instr[19:15]` (R63). -/
def rs1Of (instr : Word) : RegIdx := regField instr 15

/-- `rd = instr[11:7]` (R64). -/
def rdOf (instr : Word) : RegIdx := regField instr 7

/-- `rs2 = instr[24:20]` (R65). -/
def rs2Of (instr : Word) : RegIdx := regField instr 20

/-- `imm_I = sext_12(instr[31:20])` (R66). -/
def immI (instr : Word) : Word := signExtend (extract instr 20 12) 12

/-- `imm_S = sext_12(extract_shift(instr, 25, 7, 5) | extract(instr, 7, 5))` (R67). -/
def immS (instr : Word) : Word := signExtend (extractShift instr 25 7 5 ||| extract instr 7 5) 12

/-- DecodedInstruction of a load (R68; 10_state.md R32): transient, never persisted. -/
structure DecodedLoad where
  opcode : Word
  rd : RegIdx
  funct3 : Word
  rs1 : RegIdx
  imm : Word
  deriving DecidableEq, Repr

/-- DecodedInstruction of a store (R68; 10_state.md R32). -/
structure DecodedStore where
  opcode : Word
  funct3 : Word
  rs1 : RegIdx
  rs2 : RegIdx
  imm : Word
  deriving DecidableEq, Repr

/-- Load-style decode: "Decoding never fails; it is pure bit extraction" (R68, R69). -/
def loadDecode (instr : Word) : DecodedLoad where
  opcode := opcodeOf instr
  rd := rdOf instr
  funct3 := funct3Of instr
  rs1 := rs1Of instr
  imm := immI instr

/-- Store-style decode (R68, R69). -/
def storeDecode (instr : Word) : DecodedStore where
  opcode := opcodeOf instr
  funct3 := funct3Of instr
  rs1 := rs1Of instr
  rs2 := rs2Of instr
  imm := immS instr

/-! ### The whole word -/

/-- Why a word is none of the eight instructions (R73): there is no third kind of refusal. -/
inductive DecodeReject where
  /-- the opcode is neither LOAD nor STORE (R73, R75; 60_exceptions.md R157) -/
  | unsupportedOpcode
  /-- a load or store opcode whose function-select names no instruction: the emulator's `Failure(InvalidFunct3)`
  (R73; 41_loads.md R116, 42_stores.md R134) -/
  | invalidFunct3
  deriving DecidableEq, Repr

/-- The load a function-select names (R71). -/
def loadInstr (d : DecodedLoad) : Except DecodeReject Instr :=
  match d.funct3.toNat with
  | 0 => .ok (.lb d.rd d.rs1 d.imm)
  | 1 => .ok (.lh d.rd d.rs1 d.imm)
  | 2 => .ok (.lw d.rd d.rs1 d.imm)
  | 4 => .ok (.lbu d.rd d.rs1 d.imm)
  | 5 => .ok (.lhu d.rd d.rs1 d.imm)
  | _ => .error .invalidFunct3

/-- The store a function-select names (R72). -/
def storeInstr (d : DecodedStore) : Except DecodeReject Instr :=
  match d.funct3.toNat with
  | 0 => .ok (.sb d.rs2 d.rs1 d.imm)
  | 1 => .ok (.sh d.rs2 d.rs1 d.imm)
  | 2 => .ok (.sw d.rs2 d.rs1 d.imm)
  | _ => .error .invalidFunct3

/-- The instruction a 32-bit word stands for, or why it stands for none: the opcode first, compared on all 7 bits,
then the function-select (R70 to R73; the order is 60_exceptions.md R162's). -/
def decode (instr : Word) : Except DecodeReject Instr :=
  if opcodeOf instr = opcodeLoad then loadInstr (loadDecode instr)
  else if opcodeOf instr = opcodeStore then storeInstr (storeDecode instr)
  else .error .unsupportedOpcode

/-- The host's question: the instruction read from a word whose bits are numbered as spec/opcode_table.json numbers
them, which is this spec's own numbering (00_scope.md R9). Bits above `nbits` are 0. -/
def decodeTableWord (nbits w : Nat) : Option Instr :=
  match decode (BitVec.ofNat 32 (w % 2 ^ nbits)) with
  | .ok i => some i
  | .error _ => none

/-! ### The encoder -/

/-- A register index as a word. -/
def regWord (r : RegIdx) : Word := BitVec.ofNat 32 r.val

/-- `encI(f3, rd, rs1, imm)` (R77, the inverse of R61). -/
def encI (f3 : Word) (rd rs1 : RegIdx) (imm : Word) : Word :=
  (extract imm 0 12 <<< 20) ||| (regWord rs1 <<< 15) ||| (f3 <<< 12) ||| (regWord rd <<< 7) ||| opcodeLoad

/-- `encS(f3, rs1, rs2, imm)` (R77, the inverse of R62). -/
def encS (f3 : Word) (rs1 rs2 : RegIdx) (imm : Word) : Word :=
  (extract imm 5 7 <<< 25) ||| (regWord rs2 <<< 20) ||| (regWord rs1 <<< 15) ||| (f3 <<< 12) |||
    (extract imm 0 5 <<< 7) ||| opcodeStore

/-- The word of a well-formed instruction (R71, R72, R77). -/
def encode : Instr → Word
  | .lb rd rs1 imm => encI 0b000#32 rd rs1 imm
  | .lh rd rs1 imm => encI 0b001#32 rd rs1 imm
  | .lw rd rs1 imm => encI 0b010#32 rd rs1 imm
  | .lbu rd rs1 imm => encI 0b100#32 rd rs1 imm
  | .lhu rd rs1 imm => encI 0b101#32 rd rs1 imm
  | .sb rs2 rs1 imm => encS 0b000#32 rs1 rs2 imm
  | .sh rs2 rs1 imm => encS 0b001#32 rs1 rs2 imm
  | .sw rs2 rs1 imm => encS 0b010#32 rs1 rs2 imm

end Sys2Proof
end

