-- ==== Sys2Proof/Machine/State.lean ====
section
/-! DEFINITION. The state of the block, as plain data: what 10_state.md R20 lists (RF, Mem, halted, halt_reason), the
content of the block's ports (R27 to R30; 60_exceptions.md R150, R151; 20_memory.md R41), the parameters the spec
leaves OPEN (00_scope.md R8), and the model's own bookkeeping, marked so. Faults, refusals and reset stand here too. -/

namespace Sys2Proof.Machine

/-! ### The request port -/

/-- TrapCause (10_state.md R27): "a tagged value distinguishing "exception" vs "interrupt", carrying a numeric code". -/
inductive TrapCause where
  | exception (code : Word)
  | interrupt (code : Word)
  deriving DecidableEq, Repr

/-- The privilege level the trapped context was running in: "machine vs lower" (10_state.md R28). -/
inductive Privilege where
  | machine
  | lower
  deriving DecidableEq, Repr

/-- The active address-translation mode at trap time: "bare/identity vs paged" (10_state.md R28). -/
inductive Translation where
  | bare
  | paged
  deriving DecidableEq, Repr

/-- PrivilegeSnapshot (10_state.md R28). -/
structure PrivilegeSnapshot where
  prevPriv : Privilege
  xlate : Translation
  deriving DecidableEq, Repr

/-- What a request carries beside the register file, which is lent in `State.rf` (60_exceptions.md R150;
10_state.md R27, R28, R29). -/
structure Request where
  cause : TrapCause
  snap : PrivilegeSnapshot
  faultingPc : Word
  instr : Word
  deriving DecidableEq, Repr

/-! ### The response port and the memory port -/

/-- The response of one transaction (60_exceptions.md R151). A halt carries no program counter. -/
inductive Response where
  | resume (nextPc : Word)
  | halt
  deriving DecidableEq, Repr

/-- One aligned 32-bit transaction on the memory port (20_memory.md R41). -/
inductive PortTxn where
  | read (addr : Word)
  | write (addr value : Word)
  deriving DecidableEq, Repr

/-- The address a port transaction puts on the port. -/
def PortTxn.addr : PortTxn → Word
  | .read a => a
  | .write a _ => a

/-- The four terminal error kinds (60_exceptions.md R160). -/
inductive HaltReason where
  | unsupportedCause
  | translationRequired
  | invalidInstruction
  | addressOverflow
  deriving DecidableEq, Repr

/-! ### The parameters the spec leaves OPEN (00_scope.md R8), as data -/

/-- A range of addresses the environment does not serve, both ends included. -/
structure Hole where
  first : Word
  last : Word
  deriving DecidableEq, Repr

/-- An interrupt handler (10_state.md R30): one whose semantics the model was not given, known by a number only, or
one whose semantics are given as the register writes and byte stores it makes (60_exceptions.md R153). -/
inductive Handler where
  | unknown (id : Nat)
  | given (regs : List (RegIdx × Word)) (stores : List (Word × Byte))
  deriving DecidableEq, Repr

/-- The interrupt capability (10_state.md R30): the table size `N_IRQ`, the registered handlers by cause code, and the
default handler. -/
structure IrqCapability where
  nIrq : Nat
  table : List (Word × Handler)
  default : Handler
  deriving DecidableEq, Repr

/-! ### What the outside may do next -/

/-- One action of the environment, the agents of 00_scope.md R6 that the block meets only at its interface. -/
inductive Input where
  /-- the reset input is driven (70_reset_and_hazards.md R180) -/
  | reset
  /-- a trap is delivered as one request (60_exceptions.md R150). `frame` is the register file trap entry hands over;
  none when it is the one the last response left (`P_rf` and `P_return` of 70_reset_and_hazards.md R183 with no
  register changed between). -/
  | trap (frame : Option RegFile) (req : Request)
  /-- between two transactions the trapped program itself stores bytes (20_memory.md R52: "the single total order of
  the block's and the trapped program's accesses") -/
  | programStores (stores : List (Word × Byte))
  deriving DecidableEq, Repr

/-! ### The state -/

structure State where
  /-- `RF[0..31]`, the saved register file lent to the block (10_state.md R20, R21) -/
  rf : RegFile
  /-- `Mem`, the environment's memory (10_state.md R20; 20_memory.md R40) -/
  mem : Memory
  /-- `halted`, the sticky fail-stop indicator (10_state.md R31) -/
  halted : Bool
  /-- `halt_reason`, bookkeeping no observer reads (10_state.md R31) -/
  haltReason : Option HaltReason
  /-- the content of the request port: the transaction in progress or the last one (60_exceptions.md R150) -/
  request : Request
  /-- the content of the response port: the response to that request, none before there is one (60_exceptions.md R151;
  that it stays after the transaction is assumption log 29) -/
  response : Option Response
  /-- the addresses at which `mem_admits` is false (20_memory.md R50) -/
  holes : List Hole
  /-- `irq_table`, `N_IRQ` and `default_handler` (10_state.md R30) -/
  irq : IrqCapability
  /-- MODEL's own: the port transactions of that request so far, oldest first (20_memory.md R46, R49; assumption log
  29) -/
  portLog : List PortTxn
  /-- MODEL's own: what the environment does next, first things first (assumption log 4) -/
  inbox : List Input
  /-- MODEL's own: how many free values have been drawn (assumption log 8) -/
  draws : Nat
  deriving DecidableEq, Repr

/-! ### How a step can stop -/

/-- Why the machine has no step. -/
inductive Fault where
  /-- Raised by `step` alone: the block is halted and the environment does not reset it. "While `halted = 1` the block
  accepts no request and has no step" (10_state.md R31). Safe: nothing is claimed of what a halted core does. -/
  | halted
  /-- Raised by a port transaction at an address the environment does not admit: "has no step: the transaction is
  stuck (it neither resumes nor halts)" (20_memory.md R50). Safe: a stuck run proves nothing. -/
  | stuck (addr : Word)
  deriving DecidableEq, Repr

/-- Why an instruction has no meaning. -/
inductive Refusal where
  /-- Raised by an arm of `exec` for an instruction the model gives no meaning; no arm of this model does. Safe. -/
  | notModelled (mnemonic : String)
  deriving DecidableEq, Repr

/-! ### Reset -/

/-- The request port with nothing on it yet. DESIGN CHOICE (assumption log 3): all inputs zero, machine mode, bare. -/
def Request.blank : Request where
  cause := .exception 0#32
  snap := { prevPriv := .machine, xlate := .bare }
  faultingPc := 0#32
  instr := 0#32

/-- The machine right after reset (10_state.md R37; 70_reset_and_hazards.md R180, R181): not halted, no halt reason,
`RF[0] = 0`, idle and waiting for its first request. The spec states no value for `RF[1..31]` and `Mem`: zero
registers and nothing listed in memory are DESIGN CHOICES (assumption log 1 and 2), as are the environment's
parameters, every address admitted and every interrupt sent to one unknown handler (assumption log 5 and 6). -/
def State.reset : State where
  rf := Vector.replicate 32 0#32
  mem := []
  halted := false
  haltReason := none
  request := Request.blank
  response := none
  holes := []
  irq := { nIrq := 0, table := [], default := .unknown 0 }
  portLog := []
  inbox := []
  draws := 0

end Sys2Proof.Machine
end

