-- ==== Sys2Proof/Machine/Flags.lean ====
section
/-! DEFINITION. "The block has no status flags and no condition codes; the only one-bit state it keeps is `halted`"
(10_state.md R26). So there is no flag computation; what stands here is the setting and the clearing of that one bit
with the reason recorded beside it (R31). -/

namespace Sys2Proof.Machine

/-- `halted := 1`, `halt_reason := reason` (60_exceptions.md R161). -/
def State.setHalted (reason : HaltReason) (s : State) : State :=
  { s with halted := true, haltReason := some reason }

/-- `halted := 0`, `halt_reason` cleared (70_reset_and_hazards.md R180). -/
def State.clearHalted (s : State) : State :=
  { s with halted := false, haltReason := none }

end Sys2Proof.Machine
end

