-- ==== Sys2Proof/Machine/Memory.lean ====
section
/-! DEFINITION. Memory as a list of (address, byte) pairs in one canonical form, and the aligned 32-bit word view of it
that the memory port moves. 20_memory.md R40, R41; byte order R43. -/

namespace Sys2Proof

/-- What an address that memory does not list reads as. DESIGN CHOICE (assumption log 1), unsafe: the spec gives memory
no contents after reset (10_state.md R37), and the model takes zero. -/
def Memory.fill : Byte := 0#8

/-- The canonical form: addresses strictly rising, each inside the 2^32-byte space (20_memory.md R40), and no entry
equal to what an unlisted address reads as. Equal memories are equal lists. -/
abbrev Memory.wf (m : Memory) : Prop :=
  m.Pairwise (fun a b => a.1 < b.1) ∧ ∀ c ∈ m, c.1 < 2 ^ 32 ∧ c.2 ≠ Memory.fill

/-- The byte at an address. -/
def Memory.get : Memory → Nat → Byte
  | [], _ => Memory.fill
  | c :: rest, a => if c.1 = a then c.2 else Memory.get rest a

/-- Put an entry in front, unless it equals what an unlisted address reads as. -/
def Memory.consUnlessFill (a : Nat) (b : Byte) (rest : Memory) : Memory :=
  if b = Memory.fill then rest else (a, b) :: rest

/-- Replace the byte at an address, keeping the canonical form. -/
def Memory.put : Memory → Nat → Byte → Memory
  | [], a, b => Memory.consUnlessFill a b []
  | c :: rest, a, b =>
    if c.1 < a then c :: Memory.put rest a b
    else if c.1 = a then Memory.consUnlessFill a b rest
    else Memory.consUnlessFill a b (c :: rest)

/-- The byte at a 32-bit address. -/
def Memory.byteAt (m : Memory) (a : Word) : Byte := m.get a.toNat

/-- `MemRead(a, 4)`: "The byte at address `a` is bits `[8k+7 : 8k]` of the aligned word", so the byte at the lowest
address is the least significant (20_memory.md R41, R43). -/
def Memory.readWord (m : Memory) (a : Word) : Word :=
  m.byteAt (a + 3#32) ++ m.byteAt (a + 2#32) ++ m.byteAt (a + 1#32) ++ m.byteAt a

/-- Byte k of a word, `v[8k+7 : 8k]`. -/
def wordByte (v : Word) (k : Nat) : Byte := v.extractLsb' (8 * k) 8

/-- Store one byte at a 32-bit address. -/
def Memory.putByte (m : Memory) (a : Word) (b : Byte) : Memory := m.put a.toNat b

/-- `MemWrite(a, 4, v)`: replace the aligned word at `a` (20_memory.md R41, R43). -/
def Memory.writeWord (m : Memory) (a v : Word) : Memory :=
  (((m.putByte a (wordByte v 0)).putByte (a + 1#32) (wordByte v 1)).putByte (a + 2#32) (wordByte v 2)).putByte
    (a + 3#32) (wordByte v 3)

/-- A list of byte stores, made in order: the accesses of agents other than the block (the trapped program between
two transactions, an interrupt handler during one). -/
def Memory.putAll (m : Memory) : List (Word × Byte) → Memory
  | [] => m
  | (a, b) :: rest => Memory.putAll (m.putByte a b) rest

end Sys2Proof
end

