-- ==== Sys2Proof/Machine/Operands.lean ====
section
/-! DEFINITION. The operand forms: a general register by index (10_state.md R22, R23) and base register plus immediate
(40_datapath.md R89). There is no other. -/

namespace Sys2Proof.Machine

/-- `x[i]`: "`x[0] = 0` regardless of the content of slot 0 of the saved frame"; otherwise `RF[i]` (10_state.md R22). -/
def readReg (i : RegIdx) (s : State) : Word := if i = 0 then 0#32 else s.rf[i]

/-- The register file after `x[i] <- v`: slot i replaced, a write to index 0 discarded (10_state.md R23). -/
def putReg (rf : RegFile) (i : RegIdx) (v : Word) : RegFile := if i = 0 then rf else rf.set i v

/-- `x[i] <- v` (10_state.md R23). -/
def writeReg (i : RegIdx) (v : Word) (s : State) : State := { s with rf := putReg s.rf i v }

/-- `EA = (x[rs1] + imm) mod 2^32`: "The addition never halts" (40_datapath.md R89; 90_conflicts.md C2). -/
def effectiveAddress (rs1 : RegIdx) (imm : Word) (s : State) : Word := readReg rs1 s + imm

end Sys2Proof.Machine
end

