-- ==== Sys2Proof/Machine/Ops.lean ====
section
/-! DEFINITION. The named operations the meanings share: the memory port (20_memory.md R41, R50), the two responses
(60_exceptions.md R151: resume, fail-stop), accepting a request (R150), the reset input (70_reset_and_hazards.md R180),
and the two emulators (41_loads.md R110, 42_stores.md R130) from the decoded operands on. -/

namespace Sys2Proof.Machine

/-- How a step or a part of one ends. -/
abbrev Result := Host.Outcome State Fault Refusal

/-! ### The memory port -/

/-- An address lies in a range the environment does not serve. -/
def Hole.covers (h : Hole) (a : Word) : Bool := decide (h.first.toNat ≤ a.toNat) && decide (a.toNat ≤ h.last.toNat)

/-- `mem_admits(a)` (20_memory.md R50). -/
def admits (s : State) (a : Word) : Bool := !(s.holes.any fun h => h.covers a)

/-- Record a transaction the block put on the port (20_memory.md R49). -/
def logPort (t : PortTxn) (s : State) : State := { s with portLog := s.portLog ++ [t] }

/-- Memory replaced, everything else as it was. -/
def setMem (m : Memory) (s : State) : State := { s with mem := m }

/-- `MemRead(a, 4)`, and then the rest of the transaction with the word read; stuck where `a` is not admitted
(20_memory.md R41, R50). -/
def portRead (a : Word) (s : State) (k : Word → State → Result) : Result :=
  if admits s a then k (s.mem.readWord a) (logPort (.read a) s) else .fault (.stuck a)

/-- `MemWrite(a, 4, v)`, and then the rest of the transaction; stuck where `a` is not admitted
(20_memory.md R41, R50). -/
def portWrite (a v : Word) (s : State) (k : State → Result) : Result :=
  if admits s a then k (logPort (.write a v) (setMem (s.mem.writeWord a v) s)) else .fault (.stuck a)

/-! ### Responses -/

/-- `return Resume(pc)` (60_exceptions.md R151). -/
def respond (pc : Word) (s : State) : State := { s with response := some (.resume pc) }

/-- `return Resume((faulting_pc + 4) mod 2^32)` (10_state.md R25). -/
def resumeNext (s : State) : State := respond (s.request.faultingPc + 4#32) s

/-- `raise Halt(reason)`, the block's one exception: it "sets `halted := 1`, records `halt_reason := reason`, gives no
`next_pc`, and ends the transaction" (60_exceptions.md R161). -/
def raiseHalt (reason : HaltReason) (s : State) : State :=
  { s.setHalted reason with response := some .halt }

/-! ### Requests and the reset input -/

/-- Trap entry hands one request over: the lent register file and the inputs of the request port. What the ports held
for the request before is gone (60_exceptions.md R150; 10_state.md R36). -/
def accept (frame : Option RegFile) (req : Request) (s : State) : State :=
  { s with rf := frame.getD s.rf, request := req, response := none, portLog := [] }

/-- The reset input: `halted := 0`, `halt_reason` cleared; "Reset does not touch `RF` or memory"
(70_reset_and_hazards.md R180). The block is idle after it, with nothing on its response and memory ports (R181). -/
def applyReset (s : State) : State :=
  { s.clearHalted with response := none, portLog := [] }

/-! ### The load emulator -/

/-- The last steps of a load: truncate, extend, `x[rd] <- v`, resume (41_loads.md R110, R119). -/
def finishLoad (w : Width) (signed : Bool) (rd : RegIdx) (raw : Word) (s : State) : State :=
  resumeNext (writeReg rd (extendLoad signed w (truncateTo w raw)) s)

/-- The load emulator from its decoded operands on (41_loads.md R110). -/
def emulateLoad (w : Width) (signed : Bool) (rd rs1 : RegIdx) (imm : Word) (s : State) : Result :=
  let ea := effectiveAddress rs1 imm s
  let base := baseOf ea
  if straddles ea w then
    match secondWord base with
    | none => .next (raiseHalt .addressOverflow s)
    | some next =>
      portRead base s fun lo s₁ =>
      portRead next s₁ fun hi s₂ =>
      .next (finishLoad w signed rd (mergeLoad lo hi (shiftOf ea)) s₂)
  else
    portRead base s fun word s₁ =>
    .next (finishLoad w signed rd (alignSingle word (shiftOf ea)) s₁)

/-! ### The store emulator -/

/-- The store emulator from its decoded operands on: every check before every port transaction, all reads before all
writes, the low word written first (42_stores.md R130, R136). -/
def emulateStore (w : Width) (rs2 rs1 : RegIdx) (imm : Word) (s : State) : Result :=
  let ea := effectiveAddress rs1 imm s
  let base := baseOf ea
  let val := storeValue w (readReg rs2 s)
  if straddles ea w then
    match secondWord base with
    | none => .next (raiseHalt .addressOverflow s)
    | some next =>
      portRead base s fun lo s₁ =>
      portRead next s₁ fun hi s₂ =>
      portWrite base (mergeStoreLow lo val (shiftOf ea)) s₂ fun s₃ =>
      portWrite next (mergeStoreHigh hi val (highBytes ea w) (shiftOf ea)) s₃ fun s₄ =>
      .next (resumeNext s₄)
  else
    portRead base s fun word s₁ =>
    portWrite base (mergeStore word val w (shiftOf ea)) s₁ fun s₂ =>
    .next (resumeNext s₂)

end Sys2Proof.Machine
end

