-- ==== Sys2Proof/Machine/Loads.lean ====
section
/-! DEFINITION. The five loads, each the load emulator of 41_loads.md R110 at its own width and extension. -/

namespace Sys2Proof.Machine

/-- LB: "rule R110 with W = 1, signed" (R111). -/
def execLb (rd rs1 : RegIdx) (imm : Word) (s : State) : Result := emulateLoad .byte true rd rs1 imm s

/-- LH: "rule R110 with W = 2, signed" (R112). -/
def execLh (rd rs1 : RegIdx) (imm : Word) (s : State) : Result := emulateLoad .half true rd rs1 imm s

/-- LW: "rule R110 with W = 4"; the source calls it "a single signed word code" (R113). -/
def execLw (rd rs1 : RegIdx) (imm : Word) (s : State) : Result := emulateLoad .word true rd rs1 imm s

/-- LBU: "rule R110 with W = 1, unsigned" (R114). -/
def execLbu (rd rs1 : RegIdx) (imm : Word) (s : State) : Result := emulateLoad .byte false rd rs1 imm s

/-- LHU: "rule R110 with W = 2, unsigned" (R115). -/
def execLhu (rd rs1 : RegIdx) (imm : Word) (s : State) : Result := emulateLoad .half false rd rs1 imm s

end Sys2Proof.Machine
end

