-- ==== Sys2Proof/Machine/Stores.lean ====
section
/-! DEFINITION. The three stores, each the store emulator of 42_stores.md R130 at its own width. -/

namespace Sys2Proof.Machine

/-- SB: "rule R130 with W = 1" (R131). -/
def execSb (rs2 rs1 : RegIdx) (imm : Word) (s : State) : Result := emulateStore .byte rs2 rs1 imm s

/-- SH: "rule R130 with W = 2" (R132). -/
def execSh (rs2 rs1 : RegIdx) (imm : Word) (s : State) : Result := emulateStore .half rs2 rs1 imm s

/-- SW: "rule R130 with W = 4, `val = x[rs2]`" (R133). -/
def execSw (rs2 rs1 : RegIdx) (imm : Word) (s : State) : Result := emulateStore .word rs2 rs1 imm s

end Sys2Proof.Machine
end

