-- ==== Sys2Proof/Machine/Router.lean ====
section
/-! DEFINITION. The trap classifier and exception router (60_exceptions.md R152 to R159), the interrupt path (R153), and
what one action of the environment does to the block. -/

namespace Sys2Proof.Machine

/-! ### The interrupt path -/

/-- `irq_table(code)`: none "both for an unregistered code and for `code >= N_IRQ`" (R153; 10_state.md R30). -/
def IrqCapability.lookup (irq : IrqCapability) (code : Word) : Option Handler :=
  if code.toNat < irq.nIrq then (irq.table.find? fun e => e.1 == code).map (·.2) else none

/-- The handler a code invokes: the registered one, or the default one (R153; 90_conflicts.md C4). -/
def IrqCapability.handlerFor (irq : IrqCapability) (code : Word) : Handler := (irq.lookup code).getD irq.default

/-- What an unknown handler is given to see. -/
def handlerCall (id : Nat) (code : Word) (s : State) : HandlerCall where
  handler := id
  code := code
  faultingPc := s.request.faultingPc
  rf := s.rf
  mem := s.mem
  draw := s.draws

/-- The register writes of a handler whose semantics are given, in order. -/
def writeRegs : List (RegIdx × Word) → State → State
  | [], s => s
  | (i, v) :: rest, s => writeRegs rest (writeReg i v s)

/-- `invoke h`: "a model treats it as an opaque step that may change `RF` and memory arbitrarily (a havoc) unless it is
given the handler's semantics" (R153; 92_eei_decisions.md D11; assumption log 8 and 28). -/
def invoke (h : Handler) (code : Word) (s : State) : State :=
  match h with
  | .unknown id =>
    let call := handlerCall id code s
    { s with rf := Config.havocRegs call, mem := s.mem.putAll (Config.havocStores call), draws := s.draws + 1 }
  | .given regs stores =>
    writeRegs regs (setMem (s.mem.putAll stores) s)

/-- The interrupt path: invoke the handler, then `Resume(faulting_pc)` (R153). -/
def interruptPath (code : Word) (s : State) : State :=
  respond s.request.faultingPc (invoke (s.irq.handlerFor code) code s)

/-! ### The exception path -/

/-- The exception codes the block emulates: 0, 4 and 6 (R154). -/
def emulatedCode (code : Word) : Bool := code == 0#32 || code == 4#32 || code == 6#32

/-- "if the previous privilege is not machine mode AND translation is active" (R155). -/
def needsTranslation (snap : PrivilegeSnapshot) : Bool :=
  decide (snap.prevPriv ≠ .machine) && decide (snap.xlate = .paged)

/-- The halt reason of a word that is no emulated instruction: an unsupported opcode (R157) and an emulator's
`Failure(InvalidFunct3)` (R158) alike. -/
def rejectReason : DecodeReject → HaltReason
  | .unsupportedOpcode => .invalidInstruction
  | .invalidFunct3 => .invalidInstruction

/-- The exception path, the checks in the order of R162. -/
def exceptionPath (code : Word) (s : State) : Result :=
  if !emulatedCode code then .next (raiseHalt .unsupportedCause s)
  else if needsTranslation s.request.snap then .next (raiseHalt .translationRequired s)
  else
    match decode s.request.instr with
    | .error r => .next (raiseHalt (rejectReason r) s)
    | .ok i => exec i s

/-- The router on the request at the port (R152). -/
def handle (s : State) : Result :=
  match s.request.cause with
  | .interrupt code => .next (interruptPath code s)
  | .exception code => exceptionPath code s

/-! ### One action of the environment -/

/-- What the block does when the environment acts: the reset input always works; a halted block does nothing else
(10_state.md R31); a request runs one whole transaction (70_reset_and_hazards.md R188).

Two choices of the model, where the spec is silent. DESIGN CHOICE (assumption log 35), unsafe: the trapped program's own
stores reach memory at any address, whether `mem_admits` holds there or not; 20_memory.md R50 speaks of the block's port
transactions only. DESIGN CHOICE (assumption log 36), unsafe: the reset input is met between whole transactions only,
never between two port transactions, and a stuck transaction, which is a fault with no state, cannot be reset. -/
def react (input : Input) (s : State) : Result :=
  match input with
  | .reset => .next (applyReset s)
  | .trap frame req => if s.halted then .fault .halted else handle (accept frame req s)
  | .programStores stores => if s.halted then .fault .halted else .next (setMem (s.mem.putAll stores) s)

/-- With nothing from the environment the block waits, "idle and waits for its first request"
(70_reset_and_hazards.md R181; assumption log 34), unless it is halted and has no step (10_state.md R31). -/
def waitForInput (s : State) : Result := if s.halted then .fault .halted else .next s

/-! ### Placing an instruction word -/

/-- The request that makes the router run an instruction word: a misaligned-load cause from machine mode, which the
router does not compare with the opcode (R168), at the program counter the request port holds. -/
def fetchRequest (w : Word) (s : State) : Request where
  cause := .exception 4#32
  snap := { prevPriv := .machine, xlate := .bare }
  faultingPc := s.request.faultingPc
  instr := w

/-- The state in which that request comes next and the block accepts it (assumption log 27). -/
def placeWord (w : Word) (s : State) : State :=
  { s.clearHalted with inbox := .trap none (fetchRequest w s) :: s.inbox }

end Sys2Proof.Machine
end

