-- ==== Sys2Proof/Machine/Step.lean ====
section
/-! DEFINITION. One step: the block meets the next action of the environment, if there is one. A transaction is one
step, "synchronously, with no internal suspension points" (70_reset_and_hazards.md R184). -/

namespace Sys2Proof.Machine

def step (s : State) : Host.Outcome State Fault Refusal :=
  match s.inbox with
  | [] => waitForInput s
  | input :: rest => react input { s with inbox := rest }

/-- The block fetches nothing (10_state.md R24, 20_memory.md R40): an instruction word reaches it in a request. So the
place an instruction is fetched from is the next request, and the word's bits above `nbits` are 0. -/
def State.withFetchWord (s : State) (nbits w : Nat) : State := placeWord (BitVec.ofNat 32 (w % 2 ^ nbits)) s

end Sys2Proof.Machine
end

