-- ==== Sys2Proof/Machine/Pseudocode.lean ====
section
/-! DEFINITION. The spec's own pseudocode, read line by line over the raw instruction word: `load_width` (30_encoding.md
R71), `emulate_load` (41_loads.md R110), `emulate_store` (42_stores.md R130) and `handle` (60_exceptions.md R152), with
the emulators' two-level outcome (10_state.md R33; 90_conflicts.md C8). `step` does not call it: it runs instructions
by constructor, and that the two agree is a statement. -/

namespace Sys2Proof.Machine.Pseudo

/-- EmulationOutcome (10_state.md R33): `Resume(next_pc)` or `Failure(InvalidFunct3)`. -/
inductive EmulationOutcome where
  | resume (nextPc : Word)
  | failure
  deriving DecidableEq, Repr

/-- How a run of an emulator ends: it returns its outcome, it raises a halt directly, or a port transaction has no
step. -/
inductive Ending where
  | returns (out : EmulationOutcome) (s : State)
  | halts (reason : HaltReason) (s : State)
  | stuck (addr : Word)
  deriving DecidableEq, Repr

/-- `MemRead(a, 4)`. -/
def memRead (a : Word) (s : State) (k : Word → State → Ending) : Ending :=
  if admits s a then k (s.mem.readWord a) (logPort (.read a) s) else .stuck a

/-- `MemWrite(a, 4, v)`. -/
def memWrite (a v : Word) (s : State) (k : State → Ending) : Ending :=
  if admits s a then k (logPort (.write a v) (setMem (s.mem.writeWord a v) s)) else .stuck a

/-- `load_width(funct3)` by R71's equivalent formula: "for a valid code, `W = 1 << funct3[1:0]` and the load is signed
when `funct3[2] = 0`". -/
def loadWidth (funct3 : Word) : Option (Nat × Bool) :=
  if funct3 = 0#32 ∨ funct3 = 1#32 ∨ funct3 = 2#32 ∨ funct3 = 4#32 ∨ funct3 = 5#32 then
    some (1 <<< (extract funct3 0 2).toNat, !testBit funct3 2)
  else none

/-- The lines of R110 after `raw` is known. -/
def finishLoad (rd : RegIdx) (w : Nat) (signed : Bool) (faultingPc raw : Word) (s : State) : Ending :=
  let t := raw &&& mask (8 * w)
  let v := if signed = true ∧ w < 4 then signExtend t (8 * w) else t
  .returns (.resume (faultingPc + 4#32)) (writeReg rd v s)

/-- `emulate_load(instr, faulting_pc)` (R110). -/
def emulateLoad (instr faultingPc : Word) (s : State) : Ending :=
  let d := loadDecode instr
  match loadWidth d.funct3 with
  | none => .returns .failure s
  | some (w, signed) =>
    let ea := readReg d.rs1 s + d.imm
    let base := ea &&& 0xFFFFFFFC#32
    let offset := (ea &&& 3#32).toNat
    let shift := offset * 8
    if offset + w ≤ 4 then
      memRead base s fun word s => finishLoad d.rd w signed faultingPc (word >>> shift) s
    else if base = 0xFFFFFFFC#32 then .halts .addressOverflow s
    else
      memRead base s fun lo s =>
      memRead (base + 4#32) s fun hi s =>
      finishLoad d.rd w signed faultingPc ((lo >>> shift) ||| (hi <<< (32 - shift))) s

/-- `emulate_store(instr, faulting_pc)` (R130). -/
def emulateStore (instr faultingPc : Word) (s : State) : Ending :=
  let d := storeDecode instr
  if 2 < d.funct3.toNat then .returns .failure s
  else
    let w := 1 <<< d.funct3.toNat
    let ea := readReg d.rs1 s + d.imm
    let base := ea &&& 0xFFFFFFFC#32
    let offset := (ea &&& 3#32).toNat
    let shift := offset * 8
    let val := readReg d.rs2 s &&& mask (8 * w)
    if offset + w ≤ 4 then
      memRead base s fun word s =>
      memWrite base ((word &&& ~~~(mask (8 * w) <<< shift)) ||| (val <<< shift)) s fun s =>
      .returns (.resume (faultingPc + 4#32)) s
    else if base = 0xFFFFFFFC#32 then .halts .addressOverflow s
    else
      memRead base s fun lo s =>
      memRead (base + 4#32) s fun hi s =>
      let nHi := offset + w - 4
      memWrite base ((lo &&& mask shift) ||| (val <<< shift)) s fun s =>
      memWrite (base + 4#32) ((hi &&& ~~~(mask (8 * nHi))) ||| (val >>> (32 - shift))) s fun s =>
      .returns (.resume (faultingPc + 4#32)) s

/-- What the router makes of an emulator's ending: `Failure` becomes `Halt(InvalidInstruction)`, `Resume` is passed on
(R152, R158, R159), a halt stays one, and a stuck transaction has no step. -/
def conclude : Ending → Result
  | .returns .failure s => .next (raiseHalt .invalidInstruction s)
  | .returns (.resume pc) s => .next (respond pc s)
  | .halts reason s => .next (raiseHalt reason s)
  | .stuck a => .fault (.stuck a)

/-- `handle(cause, snap, faulting_pc, instr)` (R152). -/
def handle (req : Request) (s : State) : Result :=
  match req.cause with
  | .interrupt code => .next (interruptPath code s)
  | .exception code =>
    if ¬(code = 0#32 ∨ code = 4#32 ∨ code = 6#32) then .next (raiseHalt .unsupportedCause s)
    else if req.snap.prevPriv ≠ .machine ∧ req.snap.xlate = .paged then .next (raiseHalt .translationRequired s)
    else
      let op := req.instr.extractLsb' 0 7
      if op = 0b0000011#7 then conclude (emulateLoad req.instr req.faultingPc s)
      else if op = 0b0100011#7 then conclude (emulateStore req.instr req.faultingPc s)
      else .next (raiseHalt .invalidInstruction s)

end Sys2Proof.Machine.Pseudo
end

