-- ==== Sys2Proof/Safety.lean ====
section
/-! DEFINITION. The terms statements use: memory byte by byte, which accesses the environment serves, the launch
premises of 70_reset_and_hazards.md R183 that the state can express, a good end (R188), and the invariant of a step. -/

namespace Sys2Proof.Machine

/-- The byte at an address (20_memory.md R43). -/
def State.byteAt (s : State) (a : Word) : Byte := s.mem.byteAt a

/-- The address lies inside `[EA, EA + W)`, counted modulo 2^32. -/
abbrev inSpan (ea : Word) (w : Width) (a : Word) : Prop := (a - ea).toNat < w.bytes

/-- No second word beyond the address space: `EA + W` does not pass 2^32, so no AddressOverflow (40_datapath.md R93). -/
abbrev fitsSpace (ea : Word) (w : Width) : Prop := ea.toNat + w.bytes ≤ 2 ^ 32

/-- `P_mem` for one access: "every aligned word the transaction touches is admitted" (70_reset_and_hazards.md R183). -/
abbrev served (s : State) (ea : Word) (w : Width) : Prop :=
  ∀ k, k < w.bytes → admits s (baseOf (ea + BitVec.ofNat 32 k)) = true

/-- The request passes the first three checks of the router: an exception of an emulated code, and no lower-privilege
context under paging (60_exceptions.md R154, R155, R162). -/
abbrev passesChecks (req : Request) : Prop :=
  (req.cause = .exception 0#32 ∨ req.cause = .exception 4#32 ∨ req.cause = .exception 6#32) ∧
    ¬(req.snap.prevPriv = .lower ∧ req.snap.xlate = .paged)

/-- The environment delivers a request next and the block accepts it: it is not halted (60_exceptions.md R150). -/
abbrev delivers (s : State) (frame : Option RegFile) (req : Request) (rest : List Input) : Prop :=
  s.inbox = .trap frame req :: rest ∧ s.halted = false

/-- The access an instruction makes: its effective address (40_datapath.md R89) and its width (30_encoding.md R71, R72). -/
def accessOf (i : Instr) (s : State) : Word × Width :=
  match i with
  | .lb _ rs1 imm => (readReg rs1 s + imm, .byte)
  | .lh _ rs1 imm => (readReg rs1 s + imm, .half)
  | .lw _ rs1 imm => (readReg rs1 s + imm, .word)
  | .lbu _ rs1 imm => (readReg rs1 s + imm, .byte)
  | .lhu _ rs1 imm => (readReg rs1 s + imm, .half)
  | .sb _ rs1 imm => (readReg rs1 s + imm, .byte)
  | .sh _ rs1 imm => (readReg rs1 s + imm, .half)
  | .sw _ rs1 imm => (readReg rs1 s + imm, .word)

/-- The destination register of a load; none for a store. -/
def destOf : Instr → Option RegIdx
  | .lb rd _ _ => some rd
  | .lh rd _ _ => some rd
  | .lw rd _ _ => some rd
  | .lbu rd _ _ => some rd
  | .lhu rd _ _ => some rd
  | .sb _ _ _ => none
  | .sh _ _ _ => none
  | .sw _ _ _ => none

/-- The little-endian concatenation of the n bytes from `a` up, as a word (40_datapath.md R105). -/
def State.leBytes (s : State) (a : Word) : Nat → Word
  | 0 => 0#32
  | n + 1 => s.leBytes a n ||| ((s.byteAt (a + BitVec.ofNat 32 n)).setWidth 32 <<< (8 * n))

/-- `P_rf`: the lent frame's slot 0 holds 0 (70_reset_and_hazards.md R183). -/
abbrev frameZero (s : State) : Prop := s.rf[0] = 0#32

/-- `P_instr`: `instr` is the 32-bit word at `faulting_pc` (70_reset_and_hazards.md R183). No rule of the block needs
it; a claim about the trapped program does. -/
abbrev instrInMemory (s : State) : Prop := s.request.instr = s.mem.readWord s.request.faultingPc

/-- A good end of a transaction: "a `Resume` response, after which the block is idle and `halted = 0`"
(70_reset_and_hazards.md R188). -/
def goodEnd (s : State) : Prop := s.halted = false ∧ ∃ pc, s.response = some (.resume pc)

/-- The address is a multiple of 4 (20_memory.md R42). -/
def aligned (a : Word) : Prop := a.toNat % 4 = 0

/-- What every step keeps: memory is in canonical form; the block is halted exactly when a halt reason is recorded, and
exactly when the response is Halt (10_state.md R31; 60_exceptions.md R161); and the port carried at most four
transactions for the request, every one aligned and admitted, and none if the request halted
(20_memory.md R42, R46; 70_reset_and_hazards.md R189). -/
structure Inv (s : State) : Prop where
  memCanonical : Memory.wf s.mem
  reasonIffHalted : s.haltReason.isSome = s.halted
  responseIffHalted : s.response = some .halt ↔ s.halted = true
  portAligned : ∀ t ∈ s.portLog, aligned t.addr
  portAdmitted : ∀ t ∈ s.portLog, admits s t.addr = true
  portBounded : s.portLog.length ≤ 4
  haltIsSilent : s.halted = true → s.portLog = []

end Sys2Proof.Machine
end

