-- ==== Sys2Proof/WellFormed.lean ====
section
/-! DEFINITION. Which terms of `Instr` an encoding exists for. Register indices are bounded by their type; the one
check left is that the immediate is a sign-extended 12-bit value, "Range -2048..+2047. No scaling."
(30_encoding.md R66 for loads, R67 for stores). -/

namespace Sys2Proof

/-- The immediate lies in the signed 12-bit range of 30_encoding.md R66 and R67. -/
def immInRange (imm : Word) : Bool := decide (-2048 ≤ imm.toInt) && decide (imm.toInt ≤ 2047)

/-- A well-formed instruction: one that some 32-bit word encodes. -/
def Instr.wf : Instr → Bool
  | .lb _ _ imm => immInRange imm
  | .lh _ _ imm => immInRange imm
  | .lw _ _ imm => immInRange imm
  | .lbu _ _ imm => immInRange imm
  | .lhu _ _ imm => immInRange imm
  | .sb _ _ imm => immInRange imm
  | .sh _ _ imm => immInRange imm
  | .sw _ _ imm => immInRange imm

end Sys2Proof
end

