-- ==== Sys2Proof/Certificates/Slice0/Obligations.lean ====
section
/-! DEFINITION. The statements for the provers, each the Lean form of numbered rules of the spec. A statement about the
machine holds in every state; where it could fail only in a state no run reaches, the invariant that rules the state
out stands as a premise (`Memory.wf`, `haltReason = none`), and `Inv` is a statement of its own. -/

namespace Sys2Proof.Claims

open Sys2Proof.Machine

/-- The five loads of one set of operands, each with its width. -/
def loadForms (rd rs1 : RegIdx) (imm : Word) : List (Instr × Width) :=
  [(.lb rd rs1 imm, .byte), (.lh rd rs1 imm, .half), (.lw rd rs1 imm, .word), (.lbu rd rs1 imm, .byte),
    (.lhu rd rs1 imm, .half)]

/-- The three stores of one set of operands, each with its width. -/
def storeForms (rs2 rs1 : RegIdx) (imm : Word) : List (Instr × Width) :=
  [(.sb rs2 rs1 imm, .byte), (.sh rs2 rs1 imm, .half), (.sw rs2 rs1 imm, .word)]

/-- All eight instructions over one base register and immediate, each with its width. -/
def accessForms (r rs1 : RegIdx) (imm : Word) : List (Instr × Width) := loadForms r rs1 imm ++ storeForms r rs1 imm

/-- The register file with slot `rd` replaced, slot 0 excepted (10_state.md R23). -/
def regsAfter (rf : RegFile) (rd : RegIdx) (v : Word) : RegFile := if rd = 0 then rf else rf.set rd v

/-- The reads of a load's port transactions, by the table of 20_memory.md R46: the word at the base, and the next one
when the W bytes from EA do not all lie in it. -/
def readsOf (ea : Word) (w : Width) : List PortTxn :=
  if ea.toNat % 4 + w.bytes ≤ 4 then [.read (ea &&& 0xFFFFFFFC#32)]
  else [.read (ea &&& 0xFFFFFFFC#32), .read ((ea &&& 0xFFFFFFFC#32) + 4#32)]

/-- The writes of a store's port transactions by the same table, low address first, each carrying the word memory `m`
holds there afterwards. -/
def writesOf (ea : Word) (w : Width) (m : Memory) : List PortTxn :=
  if ea.toNat % 4 + w.bytes ≤ 4 then [.write (ea &&& 0xFFFFFFFC#32) (m.readWord (ea &&& 0xFFFFFFFC#32))]
  else
    [.write (ea &&& 0xFFFFFFFC#32) (m.readWord (ea &&& 0xFFFFFFFC#32)),
      .write ((ea &&& 0xFFFFFFFC#32) + 4#32) (m.readWord ((ea &&& 0xFFFFFFFC#32) + 4#32))]

/-- The state a load leaves when it completes: `v` in rd, the reads on the port, `Resume(faulting_pc + 4)`, and
everything else as it was. -/
def afterLoad (s : State) (rd : RegIdx) (v ea : Word) (w : Width) : State :=
  { s with
    rf := regsAfter s.rf rd v
    portLog := s.portLog ++ readsOf ea w
    response := some (.resume (s.request.faultingPc + 4#32)) }

/-- The state a store leaves when it completes with memory `m`: the reads and then the writes on the port,
`Resume(faulting_pc + 4)`, and everything else as it was. -/
def afterStore (s : State) (m : Memory) (ea : Word) (w : Width) : State :=
  { s with
    mem := m
    portLog := s.portLog ++ (readsOf ea w ++ writesOf ea w m)
    response := some (.resume (s.request.faultingPc + 4#32)) }

/-- The state a fail-stop leaves: halted, the reason recorded, the response `Halt`, and everything else as it was
(60_exceptions.md R161). -/
def afterHalt (s : State) (reason : HaltReason) : State :=
  { s with halted := true, haltReason := some reason, response := some .halt }

/-- The state in which a delivered request is taken up: the frame lent, the request on its port, the response and
memory ports empty, and everything else as it was (60_exceptions.md R150). -/
def takenUp (s : State) (frame : Option RegFile) (req : Request) (rest : List Input) : State :=
  { s with rf := frame.getD s.rf, request := req, response := none, portLog := [], inbox := rest }

/-- What a list of byte stores makes of memory `m`: the byte at an address is that of the last store to it, and is as
before where no store names it (20_memory.md R52: the value "of the most recent" write, "or the initial content if
none"). -/
def storedInOrder (m : Memory) (stores : List (Word × Byte)) (after : Memory) : Prop :=
  ∀ x : Word,
    (∀ earlier b later, stores = earlier ++ (x, b) :: later → (∀ e ∈ later, e.1 ≠ x) → after.byteAt x = b) ∧
    ((∀ e ∈ stores, e.1 ≠ x) → after.byteAt x = m.byteAt x)

/-- The handler an interrupt code selects: the first one registered for it, if the code lies inside the table; the
default one if it lies outside or is not registered (60_exceptions.md R153). -/
def selects (irq : IrqCapability) (code : Word) (h : Handler) : Prop :=
  (code.toNat < irq.nIrq ∧ ∃ before after, irq.table = before ++ (code, h) :: after ∧ ∀ e ∈ before, e.1 ≠ code) ∨
  ((irq.nIrq ≤ code.toNat ∨ ∀ e ∈ irq.table, e.1 ≠ code) ∧ irq.default = h)

/-- The 7-bit opcode field of a word, bits 6..0 (30_encoding.md R63). -/
def opcodeBits (w : Word) : BitVec 7 := w.extractLsb' 0 7

/-- The 3-bit function-select field of a word, bits 14..12 (30_encoding.md R63). -/
def funct3Bits (w : Word) : BitVec 3 := w.extractLsb' 12 3

/-- The word is none of the eight instructions, by the table of 30_encoding.md R73. -/
def refusedWord (w : Word) : Prop :=
  (opcodeBits w ≠ 0b0000011#7 ∧ opcodeBits w ≠ 0b0100011#7) ∨
  (opcodeBits w = 0b0000011#7 ∧ (funct3Bits w = 3#3 ∨ funct3Bits w = 6#3 ∨ funct3Bits w = 7#3)) ∨
  (opcodeBits w = 0b0100011#7 ∧
    (funct3Bits w = 3#3 ∨ funct3Bits w = 4#3 ∨ funct3Bits w = 5#3 ∨ funct3Bits w = 6#3 ∨ funct3Bits w = 7#3))

end Sys2Proof.Claims

open Sys2Proof Sys2Proof.Machine Sys2Proof.Claims

/-! ### Encoding -/

/-- Decode and encode agree: every well-formed instruction of the table, with every operand, is read back from its
word (30_encoding.md R61, R62, R77). -/
def Obligations.DecodeOfEncodeIsTheInstruction : Prop :=
  ∀ i : Instr, i.wf = true → decode (encode i) = .ok i

/-- Each word has one meaning and is the only word with it: what decodes is well-formed and encodes back to the word, so
no bit of a load or store is dropped (30_encoding.md R61, R62, R77). -/
def Obligations.EncodeOfDecodeIsTheWord : Prop :=
  ∀ (w : Word) (i : Instr), decode w = .ok i → i.wf = true ∧ encode i = w

/-- The field decoders are the named bits, sign-extended where the format says so, and an immediate lies in
-2048..+2047 (30_encoding.md R63 to R67). -/
def Obligations.FieldDecodersReadTheNamedBits : Prop :=
  ∀ w : Word,
    opcodeOf w = (w.extractLsb' 0 7).setWidth 32 ∧ funct3Of w = (w.extractLsb' 12 3).setWidth 32 ∧
    rs1Of w = (w.extractLsb' 15 5).toFin ∧ rdOf w = (w.extractLsb' 7 5).toFin ∧ rs2Of w = (w.extractLsb' 20 5).toFin ∧
    immI w = (w.extractLsb' 20 12).signExtend 32 ∧
    immS w = (w.extractLsb' 25 7 ++ w.extractLsb' 7 5).signExtend 32 ∧
    -2048 ≤ (immI w).toInt ∧ (immI w).toInt ≤ 2047 ∧ -2048 ≤ (immS w).toInt ∧ (immS w).toInt ≤ 2047

/-- The opcode table: a word whose masked bits are a row's match value is that row's instruction with the fields of its
format, and a word of no row is refused (30_encoding.md R70 to R73; spec/opcode_table.json). -/
def Obligations.DecodeFollowsTheOpcodeTable : Prop :=
  ∀ w : Word,
    (w &&& 0x707F#32 = 0x0003#32 → decode w = .ok (.lb (rdOf w) (rs1Of w) (immI w))) ∧
    (w &&& 0x707F#32 = 0x1003#32 → decode w = .ok (.lh (rdOf w) (rs1Of w) (immI w))) ∧
    (w &&& 0x707F#32 = 0x2003#32 → decode w = .ok (.lw (rdOf w) (rs1Of w) (immI w))) ∧
    (w &&& 0x707F#32 = 0x4003#32 → decode w = .ok (.lbu (rdOf w) (rs1Of w) (immI w))) ∧
    (w &&& 0x707F#32 = 0x5003#32 → decode w = .ok (.lhu (rdOf w) (rs1Of w) (immI w))) ∧
    (w &&& 0x707F#32 = 0x0023#32 → decode w = .ok (.sb (rs2Of w) (rs1Of w) (immS w))) ∧
    (w &&& 0x707F#32 = 0x1023#32 → decode w = .ok (.sh (rs2Of w) (rs1Of w) (immS w))) ∧
    (w &&& 0x707F#32 = 0x2023#32 → decode w = .ok (.sw (rs2Of w) (rs1Of w) (immS w))) ∧
    ((∀ m ∈ [0x0003#32, 0x1003#32, 0x2003#32, 0x4003#32, 0x5003#32, 0x0023#32, 0x1023#32, 0x2023#32],
      w &&& 0x707F#32 ≠ m) → ∃ r, decode w = .error r)

/-- A few words written out from the encodings decode to the instructions they stand for (one of every row). -/
def Obligations.KnownWordsDecode : Prop :=
  decode 0b111111111110_00110_000_00101_0000011#32 = .ok (.lb 5 6 (-2#32)) ∧
  decode 0b000000000001_00110_001_00101_0000011#32 = .ok (.lh 5 6 1#32) ∧
  decode 0b000000000011_00110_010_00101_0000011#32 = .ok (.lw 5 6 3#32) ∧
  decode 0b000000000000_00110_100_00101_0000011#32 = .ok (.lbu 5 6 0#32) ∧
  decode 0b100000000000_00110_101_00101_0000011#32 = .ok (.lhu 5 6 (-2048#32)) ∧
  decode 0b0000000_00111_00110_000_00011_0100011#32 = .ok (.sb 7 6 3#32) ∧
  decode 0b1111111_00111_00110_001_11111_0100011#32 = .ok (.sh 7 6 (-1#32)) ∧
  decode 0b0111111_00111_00110_010_01111_0100011#32 = .ok (.sw 7 6 2031#32)

/-! ### Bit-field primitives -/

/-- Setting, clearing and testing one bit, bit by bit (40_datapath.md R80, R81, R82). -/
def Obligations.SingleBitPrimitives : Prop :=
  ∀ (w : Word) (i j : Nat), i ≤ 31 → j ≤ 31 →
    (setBit w i).getLsbD j = (decide (j = i) || w.getLsbD j) ∧
    (clearBit w i).getLsbD j = (!decide (j = i) && w.getLsbD j) ∧
    testBit w i = w.getLsbD i

/-- `mask(n)` is 2^n - 1 at every n up to 32: the low n bits, none at 0 and all at 32 (40_datapath.md R83, a definition
the spec marks as its own). -/
def Obligations.MaskIsTheLowBits : Prop :=
  ∀ n j : Nat, n ≤ 32 → (mask n).toNat = 2 ^ n - 1 ∧ (mask n).getLsbD j = decide (j < n)

/-- An extracted field is the named bits, right-aligned; a shifted field is the same bits at another place, those past
bit 31 lost (40_datapath.md R84, R85). -/
def Obligations.FieldExtraction : Prop :=
  ∀ (w : Word) (lo n dst j : Nat), lo ≤ 31 → n ≤ 32 - lo → dst ≤ 31 → j ≤ 31 →
    (extract w lo n).getLsbD j = (decide (j < n) && w.getLsbD (lo + j)) ∧
    (extractShift w lo n dst).getLsbD j = (decide (dst ≤ j) && decide (j < dst + n) && w.getLsbD (lo + j - dst))

/-- Sign extension is that of the low bits, whatever lies above them, at every width; the fixed-width extensions are
its cases and those of clearing (40_datapath.md R86, R87). -/
def Obligations.SignExtensionReplicatesTheSignBit : Prop :=
  (∀ (v : Word) (n : Nat), 1 ≤ n → n ≤ 32 → signExtend v n = (v.setWidth n).signExtend 32) ∧
  (∀ v : Word, zext8 v = (v.setWidth 8).setWidth 32 ∧ sext8 v = (v.setWidth 8).signExtend 32 ∧
    zext16 v = (v.setWidth 16).setWidth 32 ∧ sext16 v = (v.setWidth 16).signExtend 32)

/-! ### Addresses and memory -/

/-- The split of an effective address (40_datapath.md R90, R91). -/
def Obligations.AddressSplit : Prop :=
  ∀ ea : Word,
    baseOf ea = ea &&& 0xFFFFFFFC#32 ∧ (baseOf ea).toNat % 4 = 0 ∧ (baseOf ea).toNat + offsetOf ea = ea.toNat ∧
    offsetOf ea = (ea &&& 3#32).toNat ∧ offsetOf ea ≤ 3 ∧ shiftOf ea = offsetOf ea * 8 ∧
    (shiftOf ea = 0 ∨ shiftOf ea = 8 ∨ shiftOf ea = 16 ∨ shiftOf ea = 24)

/-- Which accesses straddle, by width and offset, and that a straddling one has offset at least 1
(40_datapath.md R92). -/
def Obligations.PathSelection : Prop :=
  ∀ ea : Word,
    (∀ w : Width, straddles ea w = true ↔ 4 < ea.toNat % 4 + w.bytes) ∧
    straddles ea .byte = false ∧
    (straddles ea .half = true ↔ ea.toNat % 4 = 3) ∧
    (straddles ea .word = true ↔ ea.toNat % 4 ≠ 0) ∧
    (∀ w : Width, straddles ea w = true → shiftOf ea = 8 ∨ shiftOf ea = 16 ∨ shiftOf ea = 24)

/-- Byte order: the byte at an address is bits `[8k+7 : 8k]` of the aligned word that holds it, k the address mod 4
(20_memory.md R43). -/
def Obligations.LittleEndianWords : Prop :=
  ∀ (s : State) (a : Word),
    s.byteAt a = (s.mem.readWord (a &&& 0xFFFFFFFC#32)).extractLsb' (8 * (a.toNat % 4)) 8

/-- Every read of an aligned word returns what was last written to it, a write of one aligned word leaves every other
alone, and memory stays in canonical form (20_memory.md R41, R52). -/
def Obligations.WordReadAfterWrite : Prop :=
  ∀ (m : Memory) (a b v : Word), Memory.wf m → aligned a → aligned b →
    Memory.wf (m.writeWord a v) ∧ (m.writeWord a v).readWord b = if b = a then v else m.readWord b

/-- Equal memories are equal data: two memories in canonical form that read alike at every address are the same list,
whatever an unlisted address reads as (the model's choice, assumption log 1). -/
def Obligations.CanonicalMemoryIsUnique : Prop :=
  ∀ m n : Memory, Memory.wf m → Memory.wf n → (∀ a : Word, m.byteAt a = n.byteAt a) → m = n

/-! ### Registers -/

/-- Register 0 reads 0 whatever its slot holds (a decision of the spec, 92_eei_decisions.md D4), any other register reads
its slot, a write sets its slot and no other, and a write to register 0 is discarded (10_state.md R22, R23). -/
def Obligations.RegisterZeroIsHardWired : Prop :=
  ∀ (s : State) (i : RegIdx) (v : Word),
    readReg 0 s = 0#32 ∧ (i ≠ 0 → readReg i s = s.rf[i]) ∧
    writeReg 0 v s = s ∧ (i ≠ 0 → writeReg i v s = { s with rf := s.rf.set i v }) ∧
    (∀ j : RegIdx, readReg j (writeReg i v s) = if j = i ∧ i ≠ 0 then v else readReg j s)

/-! ### The loads -/

/-- LB and LBU complete on every operand whose byte is served: rd takes the byte at EA sign- or zero-extended (register
0 excepted), and nothing else changes but the response and the port (41_loads.md R111, R114, R120). -/
def Obligations.ByteLoadsComplete : Prop :=
  ∀ (rd rs1 : RegIdx) (imm : Word) (s : State), served s (readReg rs1 s + imm) .byte →
    let ea := readReg rs1 s + imm
    exec (.lb rd rs1 imm) s = .next (afterLoad s rd ((s.byteAt ea).signExtend 32) ea .byte) ∧
    exec (.lbu rd rs1 imm) s = .next (afterLoad s rd ((s.byteAt ea).setWidth 32) ea .byte)

/-- LH and LHU complete on every operand whose bytes exist and are served, at every offset: rd takes the two bytes at EA,
the lower one least significant, sign- or zero-extended (41_loads.md R112, R115, R120). -/
def Obligations.HalfwordLoadsComplete : Prop :=
  ∀ (rd rs1 : RegIdx) (imm : Word) (s : State),
    fitsSpace (readReg rs1 s + imm) .half → served s (readReg rs1 s + imm) .half →
    let ea := readReg rs1 s + imm
    exec (.lh rd rs1 imm) s =
      .next (afterLoad s rd ((s.byteAt (ea + 1#32) ++ s.byteAt ea).signExtend 32) ea .half) ∧
    exec (.lhu rd rs1 imm) s =
      .next (afterLoad s rd ((s.byteAt (ea + 1#32) ++ s.byteAt ea).setWidth 32) ea .half)

/-- LW completes on every operand whose bytes exist and are served, at every offset: rd takes the four bytes at EA, the
lowest least significant (41_loads.md R113, R120). -/
def Obligations.WordLoadCompletes : Prop :=
  ∀ (rd rs1 : RegIdx) (imm : Word) (s : State),
    fitsSpace (readReg rs1 s + imm) .word → served s (readReg rs1 s + imm) .word →
    let ea := readReg rs1 s + imm
    exec (.lw rd rs1 imm) s =
      .next (afterLoad s rd
        (s.byteAt (ea + 3#32) ++ s.byteAt (ea + 2#32) ++ s.byteAt (ea + 1#32) ++ s.byteAt ea) ea .word)

/-- A load to register 0 runs every step, its reads and its overflow check, and writes no register
(41_loads.md R117). -/
def Obligations.LoadToRegisterZero : Prop :=
  ∀ (rs1 : RegIdx) (imm : Word) (s : State), ∀ f ∈ loadForms 0 rs1 imm,
    (fitsSpace (readReg rs1 s + imm) f.2 → served s (readReg rs1 s + imm) f.2 →
      exec f.1 s = .next { s with
        portLog := s.portLog ++ readsOf (readReg rs1 s + imm) f.2
        response := some (.resume (s.request.faultingPc + 4#32)) }) ∧
    (¬ fitsSpace (readReg rs1 s + imm) f.2 → exec f.1 s = .next (afterHalt s .addressOverflow))

/-- The frame of the five loads: when one answers a next state, every register but rd, every byte of memory and all else
but the response, the port and the halt indicator with its reason are as they were; register 0's slot always is
(41_loads.md R119, R120). -/
def Obligations.LoadFrame : Prop :=
  ∀ (rd rs1 : RegIdx) (imm : Word) (s t : State), ∀ f ∈ loadForms rd rs1 imm, exec f.1 s = .next t →
    (∀ j : RegIdx, j ≠ rd → t.rf[j] = s.rf[j]) ∧ t.rf[0] = s.rf[0] ∧ t.mem = s.mem ∧
    (∀ a : Word, t.byteAt a = s.byteAt a) ∧ (t.halted = true → s.halted = true ∨ t.rf = s.rf) ∧
    (t.halted = s.halted ∧ t.haltReason = s.haltReason ∨
      t.halted = true ∧ t.haltReason = some .addressOverflow) ∧
    t.request = s.request ∧ t.holes = s.holes ∧ t.irq = s.irq ∧ t.inbox = s.inbox ∧ t.draws = s.draws

/-! ### The stores -/

/-- SB completes on every operand whose byte is served: the byte at EA becomes the low byte of `x[rs2]`, every other byte
is as it was, and nothing else changes but the response and the port (42_stores.md R131, R137, R138). -/
def Obligations.ByteStoreCompletes : Prop :=
  ∀ (rs2 rs1 : RegIdx) (imm : Word) (s : State), Memory.wf s.mem → served s (readReg rs1 s + imm) .byte →
    let ea := readReg rs1 s + imm
    ∃ m : Memory, exec (.sb rs2 rs1 imm) s = .next (afterStore s m ea .byte) ∧ Memory.wf m ∧
      m.byteAt ea = (readReg rs2 s).extractLsb' 0 8 ∧
      ∀ a : Word, ¬ inSpan ea .byte a → m.byteAt a = s.byteAt a

/-- SH completes on every operand whose bytes exist and are served, at every offset: the two bytes at EA become the low
halfword of `x[rs2]`, and every other byte is as it was (42_stores.md R132, R137, R138). -/
def Obligations.HalfwordStoreCompletes : Prop :=
  ∀ (rs2 rs1 : RegIdx) (imm : Word) (s : State), Memory.wf s.mem →
    fitsSpace (readReg rs1 s + imm) .half → served s (readReg rs1 s + imm) .half →
    let ea := readReg rs1 s + imm
    ∃ m : Memory, exec (.sh rs2 rs1 imm) s = .next (afterStore s m ea .half) ∧ Memory.wf m ∧
      m.byteAt ea = (readReg rs2 s).extractLsb' 0 8 ∧ m.byteAt (ea + 1#32) = (readReg rs2 s).extractLsb' 8 8 ∧
      ∀ a : Word, ¬ inSpan ea .half a → m.byteAt a = s.byteAt a

/-- SW completes on every operand whose bytes exist and are served, at every offset: the four bytes at EA become
`x[rs2]`, and every other byte is as it was (42_stores.md R133, R137, R138). -/
def Obligations.WordStoreCompletes : Prop :=
  ∀ (rs2 rs1 : RegIdx) (imm : Word) (s : State), Memory.wf s.mem →
    fitsSpace (readReg rs1 s + imm) .word → served s (readReg rs1 s + imm) .word →
    let ea := readReg rs1 s + imm
    ∃ m : Memory, exec (.sw rs2 rs1 imm) s = .next (afterStore s m ea .word) ∧ Memory.wf m ∧
      (∀ k, k < 4 → m.byteAt (ea + BitVec.ofNat 32 k) = (readReg rs2 s).extractLsb' (8 * k) 8) ∧
      ∀ a : Word, ¬ inSpan ea .word a → m.byteAt a = s.byteAt a

/-- The frame of the three stores: when one answers a next state, every register, every byte outside `[EA, EA + W)` and
all else but the response, the port and the halt indicator with its reason are as they were; a store that halts leaves
every byte as it was (40_datapath.md R104; 42_stores.md R136, R138). -/
def Obligations.StoreFrame : Prop :=
  ∀ (rs2 rs1 : RegIdx) (imm : Word) (s t : State), Memory.wf s.mem → ∀ f ∈ storeForms rs2 rs1 imm,
    exec f.1 s = .next t →
    t.rf = s.rf ∧
    (∀ a : Word, ¬ inSpan (effectiveAddress rs1 imm s) f.2 a → t.byteAt a = s.byteAt a) ∧
    (t.halted = s.halted ∧ t.haltReason = s.haltReason ∧ fitsSpace (effectiveAddress rs1 imm s) f.2 ∨
      t = afterHalt s .addressOverflow) ∧
    t.request = s.request ∧ t.holes = s.holes ∧ t.irq = s.irq ∧ t.inbox = s.inbox ∧ t.draws = s.draws

/-- A store that completes, then a load of the same width from the same address, yields the low W bytes of the stored
register, zero- or sign-extended, at every offset (40_datapath.md R106). -/
def Obligations.StoreThenLoadRoundTrip : Prop :=
  ∀ (rs2 rs1 rd rb : RegIdx) (imm imm' : Word) (s t : State), Memory.wf s.mem → rd ≠ 0 →
    readReg rb t + imm' = readReg rs1 s + imm → t.halted = false →
    (exec (.sb rs2 rs1 imm) s = .next t →
      ∃ u v, exec (.lb rd rb imm') t = .next u ∧ exec (.lbu rd rb imm') t = .next v ∧
        u.rf[rd] = ((readReg rs2 s).setWidth 8).signExtend 32 ∧ v.rf[rd] = ((readReg rs2 s).setWidth 8).setWidth 32) ∧
    (exec (.sh rs2 rs1 imm) s = .next t →
      ∃ u v, exec (.lh rd rb imm') t = .next u ∧ exec (.lhu rd rb imm') t = .next v ∧
        u.rf[rd] = ((readReg rs2 s).setWidth 16).signExtend 32 ∧
        v.rf[rd] = ((readReg rs2 s).setWidth 16).setWidth 32) ∧
    (exec (.sw rs2 rs1 imm) s = .next t → ∃ u, exec (.lw rd rb imm') t = .next u ∧ u.rf[rd] = readReg rs2 s)

/-! ### What stops an access -/

/-- All eight instructions: an access whose second word would lie beyond the address space, which is a straddling one
at the last aligned word, halts with AddressOverflow and touches no register, no memory and not the port
(40_datapath.md R93). -/
def Obligations.SecondWordOverflowHalts : Prop :=
  ∀ (r rs1 : RegIdx) (imm : Word) (s : State), ∀ f ∈ accessForms r rs1 imm,
    let ea := effectiveAddress rs1 imm s
    (straddles ea f.2 = true ∧ baseOf ea = 0xFFFFFFFC#32 ↔ 2 ^ 32 < ea.toNat + f.2.bytes) ∧
    (2 ^ 32 < ea.toNat + f.2.bytes → exec f.1 s = .next (afterHalt s .addressOverflow)) ∧
    (straddles ea f.2 = true → baseOf ea ≠ 0xFFFFFFFC#32 →
      secondWord (baseOf ea) = some (baseOf ea + 4#32) ∧ (baseOf ea + 4#32).toNat = (baseOf ea).toNat + 4)

/-- All eight instructions: the first port transaction at an address the environment does not admit leaves the
transaction stuck; it neither resumes nor halts (20_memory.md R50). -/
def Obligations.UnadmittedAddressIsStuck : Prop :=
  ∀ (r rs1 : RegIdx) (imm : Word) (s : State), ∀ f ∈ accessForms r rs1 imm,
    let ea := effectiveAddress rs1 imm s
    fitsSpace ea f.2 →
    (admits s (baseOf ea) = false → exec f.1 s = .fault (.stuck (baseOf ea))) ∧
    (admits s (baseOf ea) = true → straddles ea f.2 = true → admits s (baseOf ea + 4#32) = false →
      exec f.1 s = .fault (.stuck (baseOf ea + 4#32)))

/-! ### The router -/

/-- When a delivered request passes the router's checks and its word decodes, the step is that instruction's meaning on
the state with the request taken up (60_exceptions.md R150, R152, R156). -/
def Obligations.StepRunsTheDecodedInstruction : Prop :=
  ∀ (s : State) (frame : Option RegFile) (req : Request) (rest : List Input) (i : Instr),
    delivers s frame req rest → passesChecks req → decode req.instr = .ok i →
    step s = exec i (takenUp s frame req rest)

/-- A word placed for the next fetch is the instruction the very next step runs, from every state. How a word is placed
is the model's choice (assumption log 27). -/
def Obligations.PlacedWordRunsNext : Prop :=
  ∀ (s : State) (w : Word) (i : Instr), decode w = .ok i →
    step (s.withFetchWord 32 w.toNat) =
      exec i { s with
        halted := false
        haltReason := none
        request := { cause := .exception 4#32, snap := { prevPriv := .machine, xlate := .bare },
                     faultingPc := s.request.faultingPc, instr := w }
        response := none
        portLog := [] }

/-- The router and both emulators are the spec's pseudocode: on every request, a step answers exactly what reading
`handle`, `emulate_load` and `emulate_store` line by line over the raw instruction word answers
(60_exceptions.md R152; 41_loads.md R110; 42_stores.md R130). The interrupt arm is the same operation on both sides:
what it does is stated by `InterruptInvokesTheTableEntry`, `UnknownHandlerIsHavoc` and
`InterruptResumesAtTheTrappedPc`. -/
def Obligations.StepRefinesThePseudocode : Prop :=
  ∀ (s : State) (frame : Option RegFile) (req : Request) (rest : List Input),
    delivers s frame req rest → step s = Pseudo.handle req (takenUp s frame req rest)

/-- The cause check's table: an exception code other than 0, 4 and 6 halts as unsupported, with no effect before the
halt, and none of those three does (60_exceptions.md R154). -/
def Obligations.UnsupportedCauseHalts : Prop :=
  ∀ (s : State) (frame : Option RegFile) (req : Request) (rest : List Input) (code : Word),
    delivers s frame req rest → req.cause = .exception code →
    (code ≠ 0#32 → code ≠ 4#32 → code ≠ 6#32 →
      step s = .next (afterHalt (takenUp s frame req rest) .unsupportedCause)) ∧
    (code = 0#32 ∨ code = 4#32 ∨ code = 6#32 → s.haltReason = none →
      ∀ t, step s = .next t → t.haltReason ≠ some .unsupportedCause)

/-- The translation check's truth table: an emulated cause halts for translation exactly from a lower privilege under
paging, with no effect before the halt (60_exceptions.md R155). -/
def Obligations.TranslationCheck : Prop :=
  ∀ (s : State) (frame : Option RegFile) (req : Request) (rest : List Input) (code : Word),
    delivers s frame req rest → s.haltReason = none → req.cause = .exception code →
    (code = 0#32 ∨ code = 4#32 ∨ code = 6#32) →
    (req.snap = { prevPriv := .lower, xlate := .paged } →
      step s = .next (afterHalt (takenUp s frame req rest) .translationRequired)) ∧
    (req.snap ≠ { prevPriv := .lower, xlate := .paged } →
      ∀ t, step s = .next t → t.haltReason ≠ some .translationRequired)

/-- A word whose opcode is neither LOAD nor STORE, or whose function-select names no load or store, halts with
InvalidInstruction, with no effect before the halt (30_encoding.md R73; 60_exceptions.md R157, R158). -/
def Obligations.InvalidInstructionHalts : Prop :=
  ∀ (s : State) (frame : Option RegFile) (req : Request) (rest : List Input),
    delivers s frame req rest → passesChecks req → refusedWord req.instr →
    step s = .next (afterHalt (takenUp s frame req rest) .invalidInstruction)

/-- One outcome, decided by the first check that applies: the halt reason a delivered exception ends with is read off
the code, then the snapshot, then the word, then the address, in that order, and there is none when all pass
(60_exceptions.md R162). -/
def Obligations.ChecksInOrder : Prop :=
  ∀ (s t : State) (frame : Option RegFile) (req : Request) (rest : List Input) (code : Word),
    delivers s frame req rest → s.haltReason = none → req.cause = .exception code → step s = .next t →
    t.haltReason =
      if code ≠ 0#32 ∧ code ≠ 4#32 ∧ code ≠ 6#32 then some .unsupportedCause
      else if req.snap.prevPriv = .lower ∧ req.snap.xlate = .paged then some .translationRequired
      else
        match decode req.instr with
        | .error _ => some .invalidInstruction
        | .ok i =>
          let access := accessOf i (takenUp s frame req rest)
          if 2 ^ 32 < access.1.toNat + access.2.bytes then some .addressOverflow else none

/-- Which emulated cause was reported, and from which privilege and translation mode, makes no difference once the
checks pass: two requests that agree in program counter and word end alike but for the request port itself
(60_exceptions.md R166, R167, R168). -/
def Obligations.CauseAndModeAreNotCrossChecked : Prop :=
  ∀ (s t : State) (frame : Option RegFile) (req req' : Request) (rest : List Input),
    delivers s frame req rest → passesChecks req → passesChecks req' → req'.faultingPc = req.faultingPc →
    req'.instr = req.instr → step s = .next t →
    step { s with inbox := .trap frame req' :: rest } = .next { t with request := req' }

/-- The interrupt path never halts, puts nothing on the memory port, and resumes at the pre-trap program counter, whatever
the handler does to the registers and memory; the instruction word and the snapshot are not looked at
(60_exceptions.md R153). -/
def Obligations.InterruptResumesAtTheTrappedPc : Prop :=
  ∀ (s : State) (frame : Option RegFile) (req : Request) (rest : List Input) (code : Word),
    delivers s frame req rest → req.cause = .interrupt code →
    ∃ t, step s = .next t ∧ t.response = some (.resume req.faultingPc) ∧ t.halted = false ∧
      t.haltReason = s.haltReason ∧ t.portLog = [] ∧ t.request = req ∧ t.holes = s.holes ∧ t.irq = s.irq ∧
      t.inbox = rest ∧ (Memory.wf s.mem → Memory.wf t.mem)

/-- The handler invoked is the one registered for the code inside the table, and the default one when the code is
unregistered or out of table range (60_exceptions.md R153; 90_conflicts.md C4). The handlers here are ones whose
semantics are given, so that what they did can be seen; the form such a handler has is the model's choice
(assumption log 28). -/
def Obligations.InterruptInvokesTheTableEntry : Prop :=
  ∀ (s : State) (frame : Option RegFile) (req : Request) (rest : List Input) (code : Word)
    (regs : List (RegIdx × Word)) (stores : List (Word × Byte)),
    delivers s frame req rest → req.cause = .interrupt code → selects s.irq code (.given regs stores) →
    ∃ t, step s = .next t ∧ t.mem = s.mem.putAll stores ∧
      t.rf = regs.foldl (fun rf w => regsAfter rf w.1 w.2) (frame.getD s.rf) ∧
      t.response = some (.resume req.faultingPc) ∧ t.draws = s.draws

/-- An unknown handler, selected by the same rule, is a havoc: the registers are the free value of the call, memory is
what its free list of stores makes of the memory before, one draw more is counted, so that the next havoc is another
one, the response is `Resume(faulting_pc)`, and nothing else changes (60_exceptions.md R153). The form of the free
values is the model's choice (assumption log 8); the statement holds whatever they are. -/
def Obligations.UnknownHandlerIsHavoc : Prop :=
  ∀ (s : State) (frame : Option RegFile) (req : Request) (rest : List Input) (code : Word) (id : Nat),
    delivers s frame req rest → req.cause = .interrupt code → selects s.irq code (.unknown id) →
    let call : HandlerCall :=
      { handler := id, code := code, faultingPc := req.faultingPc, rf := frame.getD s.rf, mem := s.mem, draw := s.draws }
    ∃ m : Memory, step s = .next { takenUp s frame req rest with
        rf := Config.havocRegs call
        mem := m
        draws := s.draws + 1
        response := some (.resume req.faultingPc) } ∧
      m = s.mem.putAll (Config.havocStores call) ∧
      (Memory.wf s.mem → Memory.wf m ∧ storedInOrder s.mem (Config.havocStores call) m)

/-! ### Responses, halts and reset -/

/-- Every transaction has exactly one response: `Resume(faulting_pc + 4)`, modulo 2^32, after an emulation, and
`Resume(faulting_pc)` after an interrupt, the block not halted; or `Halt`, with the block halted and the reason
recorded; and it has none only when it is stuck at an address that is not admitted (60_exceptions.md R151). -/
def Obligations.ResumeAtTheNextPcOrHalt : Prop :=
  ∀ (s : State) (frame : Option RegFile) (req : Request) (rest : List Input), delivers s frame req rest →
    (∃ t, step s = .next t ∧
      ((∃ code, req.cause = .exception code ∧ t.halted = false ∧
          t.response = some (.resume (req.faultingPc + 4#32))) ∨
        (∃ code, req.cause = .interrupt code ∧ t.halted = false ∧ t.response = some (.resume req.faultingPc)) ∨
        (∃ code, req.cause = .exception code ∧ t.halted = true ∧ t.haltReason.isSome = true ∧
          t.response = some .halt))) ∨
    (∃ a, step s = .fault (.stuck a) ∧ admits s a = false)

/-- A register write sets its slot and no other, one to register 0 none; a transaction of an exception writes at most one
register, and only when a load completes, at its decoded destination; a store and the router write none
(10_state.md R23). -/
def Obligations.AtMostOneRegisterWrite : Prop :=
  (∀ (s : State) (i j : RegIdx) (v : Word), (writeReg i v s).rf[j] = if j = i ∧ i ≠ 0 then v else s.rf[j]) ∧
  ∀ (s t : State) (frame : Option RegFile) (req : Request) (rest : List Input),
    delivers s frame req rest → step s = .next t →
    (∀ code, req.cause = .exception code → ∀ j : RegIdx, t.rf[j] ≠ (frame.getD s.rf)[j] →
      j ≠ 0 ∧ t.halted = false ∧ ∃ i, decode req.instr = .ok i ∧ destOf i = some j) ∧
    (∀ code stores, req.cause = .interrupt code → s.irq.handlerFor code = .given [] stores →
      t.rf = frame.getD s.rf)

/-- A transaction of an exception that halts has had no side effect: registers and memory are as the request found them
and nothing was put on the port (60_exceptions.md R160). -/
def Obligations.HaltHasNoSideEffect : Prop :=
  ∀ (s t : State) (frame : Option RegFile) (req : Request) (rest : List Input) (code : Word),
    delivers s frame req rest → req.cause = .exception code → step s = .next t → t.halted = true →
    ∃ reason, t = afterHalt (takenUp s frame req rest) reason

/-- The number of port transactions: 1 for a single-word load, 2 for a straddling load, 2 for a single-word store, 4 for
a straddling store, and 0 for every halt (20_memory.md R46; 70_reset_and_hazards.md R189). -/
def Obligations.PortTransactionCounts : Prop :=
  ∀ (s t : State) (frame : Option RegFile) (req : Request) (rest : List Input) (code : Word),
    delivers s frame req rest → req.cause = .exception code → step s = .next t →
    (t.halted = true → t.portLog.length = 0) ∧
    (t.halted = false → ∃ i, decode req.instr = .ok i ∧
      t.portLog.length =
        (if (destOf i).isSome then 1 else 2) *
          (if straddles (accessOf i (takenUp s frame req rest)).1 (accessOf i (takenUp s frame req rest)).2 then 2
            else 1))

/-- A halted block has no step unless it is reset, whatever else the environment does; only the reset input takes it out
of the halt; and what halts it is recorded (10_state.md R31). -/
def Obligations.HaltIsStickyUntilReset : Prop :=
  ∀ s : State,
    (s.halted = true → (∀ rest, s.inbox ≠ .reset :: rest) → step s = .fault .halted) ∧
    (∀ t, s.halted = true → step s = .next t → ∃ rest, s.inbox = .reset :: rest) ∧
    (∀ t, s.halted = false → step s = .next t → t.halted = true → ∃ reason, t.haltReason = some reason)

/-- The reset input always works: it clears `halted` and the reason and does not touch registers or memory
(70_reset_and_hazards.md R180). That the response and the memory port are empty afterwards is the model's choice
(assumption log 9), and so is that the parameters stand, and that reset comes between whole transactions only
(assumption log 36). -/
def Obligations.ResetInputClearsTheHalt : Prop :=
  ∀ (s : State) (rest : List Input), s.inbox = .reset :: rest →
    step s = .next { s with
      halted := false, haltReason := none, response := none, portLog := [], inbox := rest }

/-- Right after reset the block is not halted and has no halt reason, register 0 is 0, and it waits: with no request a
step changes nothing (10_state.md R37; 70_reset_and_hazards.md R180, R181; the step that waits is the model's choice,
assumption log 34). -/
def Obligations.ResetStateIsIdle : Prop :=
  State.reset.halted = false ∧ State.reset.haltReason = none ∧ State.reset.rf[0] = 0#32 ∧
    step State.reset = .next State.reset

/-- The block waits in every state with no request and no halt (70_reset_and_hazards.md R181, R188). That waiting is a
step which changes nothing is the model's choice (assumption log 34). -/
def Obligations.IdleBlockWaits : Prop :=
  ∀ s : State, s.inbox = [] → s.halted = false → step s = .next s

/-- Between transactions the trapped program's own stores, however many, reach memory in order and change nothing else of
the block (20_memory.md R52; the input is the model's, assumption log 4, and so is that it stores at any address,
whether `mem_admits` holds there or not, assumption log 35). -/
def Obligations.ProgramStoresReachMemory : Prop :=
  ∀ (s : State) (stores : List (Word × Byte)) (rest : List Input), Memory.wf s.mem →
    s.inbox = .programStores stores :: rest → s.halted = false →
    ∃ m : Memory, step s = .next { s with mem := m, inbox := rest } ∧ Memory.wf m ∧ storedInOrder s.mem stores m

/-! ### Whole-machine rules -/

/-- Every step keeps the invariant: canonical memory, the halt indicator in agreement with its reason and the response,
and a memory port that carried only aligned, admitted transactions, at most four, none before a halt
(20_memory.md R42, R46; 10_state.md R31; 60_exceptions.md R160, R161). -/
def Obligations.StepKeepsTheInvariant : Prop :=
  ∀ s t : State, Inv s → step s = .next t → Inv t

/-- The reset state meets the invariant. -/
def Obligations.ResetMeetsTheInvariant : Prop := Inv State.reset

/-- Nothing survives a transaction but registers, memory and `halted`: what an earlier request, its response and its port
transactions were makes no difference to the next one (10_state.md R36). -/
def Obligations.NoHiddenState : Prop :=
  ∀ (s : State) (frame : Option RegFile) (req old : Request) (rest : List Input) (response : Option Response)
    (log : List PortTxn),
    delivers s frame req rest →
    step { s with request := old, response := response, portLog := log } = step s

/-- With a fresh frame handed over, the registers of the transaction before make no difference either: each transaction
receives its own snapshot (10_state.md R37; 60_exceptions.md R163). -/
def Obligations.FreshFrameReplacesRegisters : Prop :=
  ∀ (s : State) (frame rf : RegFile) (req : Request) (rest : List Input),
    delivers s (some frame) req rest → step { s with rf := rf } = step s

/-- No step changes the environment's parameters: which addresses are admitted, and the interrupt capability
(00_scope.md R8; 10_state.md R20). -/
def Obligations.ParametersNeverChange : Prop :=
  ∀ s t : State, step s = .next t → t.holes = s.holes ∧ t.irq = s.irq

/-- A step stops only because the block is halted or a port transaction is not admitted, and never for want of a meaning:
every delivered request is resumed, halted or stuck (60_exceptions.md R151; 70_reset_and_hazards.md R188). -/
def Obligations.OnlyHaltedOrStuckStops : Prop :=
  ∀ s : State, (∃ t, step s = .next t) ∨ (step s = .fault .halted ∧ s.halted = true) ∨
    (∃ a, step s = .fault (.stuck a) ∧ s.halted = false ∧ admits s a = false ∧ aligned a)
end

