-- ==== Sys2Proof/Laws/Memory.lean ====
section
/-! SUPPORT. The laws of memory: a read after a write, and that every operation keeps the canonical form. -/

namespace Sys2Proof

/-! ### Single bytes -/

/-- Below the first listed address nothing is listed. -/
theorem Memory.get_of_below {m : Memory} {a : Nat} (h : ∀ c ∈ m, a < c.1) : m.get a = Memory.fill := by
  induction m with
  | nil => rfl
  | cons c rest ih =>
    have hc := h c (by simp)
    rw [Memory.get, if_neg (by omega)]
    exact ih fun d hd => h d (by simp [hd])

theorem Memory.get_consUnlessFill (a : Nat) (b : Byte) (rest : Memory) (x : Nat)
    (h : ∀ c ∈ rest, a < c.1) :
    (Memory.consUnlessFill a b rest).get x = if x = a then b else rest.get x := by
  unfold Memory.consUnlessFill
  split
  · next hb =>
    split
    · next hx => rw [hx, Memory.get_of_below h, hb]
    · rfl
  · rw [Memory.get]
    by_cases hx : x = a
    · simp [hx]
    · simp [hx, Ne.symm hx]

theorem Memory.wf_tail {c : Host.Cell} {rest : Memory} (h : Memory.wf (c :: rest)) : Memory.wf rest :=
  ⟨(List.pairwise_cons.1 h.1).2, fun d hd => h.2 d (by simp [hd])⟩

theorem Memory.wf_head {c : Host.Cell} {rest : Memory} (h : Memory.wf (c :: rest)) : ∀ d ∈ rest, c.1 < d.1 :=
  (List.pairwise_cons.1 h.1).1

/-- Read after write, at the written address and at every other. -/
theorem Memory.get_put {m : Memory} (h : Memory.wf m) (a : Nat) (b : Byte) (x : Nat) :
    (m.put a b).get x = if x = a then b else m.get x := by
  induction m with
  | nil => rw [Memory.put, Memory.get_consUnlessFill _ _ _ _ (by simp)]
  | cons c rest ih =>
    have hlt := Memory.wf_head h
    rw [Memory.put]
    split
    · next hc =>
      rw [Memory.get, ih (Memory.wf_tail h), Memory.get]
      by_cases hx : x = a
      · simp [hx, Nat.ne_of_lt hc]
      · simp [hx]
    · split
      · next hc =>
        rw [Memory.get_consUnlessFill _ _ _ _ (hc ▸ hlt), Memory.get]
        by_cases hx : x = a
        · simp [hx]
        · simp [hx, hc, Ne.symm hx]
      · next h1 h2 =>
        refine Memory.get_consUnlessFill _ _ _ _ fun d hd => ?_
        rcases List.mem_cons.1 hd with rfl | hd
        · omega
        · have := hlt d hd; omega

theorem Memory.mem_consUnlessFill {a : Nat} {b : Byte} {rest : Memory} {d : Host.Cell}
    (h : d ∈ Memory.consUnlessFill a b rest) : (d = (a, b) ∧ b ≠ Memory.fill) ∨ d ∈ rest := by
  unfold Memory.consUnlessFill at h
  split at h
  · exact .inr h
  · next hb => exact (List.mem_cons.1 h).imp_left fun e => ⟨e, hb⟩

theorem Memory.wf_consUnlessFill {a : Nat} {b : Byte} {rest : Memory} (ha : a < 2 ^ 32) (h : Memory.wf rest)
    (hlt : ∀ c ∈ rest, a < c.1) : Memory.wf (Memory.consUnlessFill a b rest) := by
  unfold Memory.consUnlessFill
  split
  · exact h
  · next hb =>
    refine ⟨List.pairwise_cons.2 ⟨hlt, h.1⟩, fun c hc => ?_⟩
    rcases List.mem_cons.1 hc with rfl | hc
    · exact ⟨ha, hb⟩
    · exact h.2 c hc

theorem Memory.mem_put {m : Memory} {a : Nat} {b : Byte} {d : Host.Cell} (h : d ∈ m.put a b) :
    d.1 = a ∨ d ∈ m := by
  induction m with
  | nil =>
    rcases Memory.mem_consUnlessFill h with ⟨rfl, -⟩ | h
    · exact .inl rfl
    · simp at h
  | cons c rest ih =>
    rw [Memory.put] at h
    split at h
    · rcases List.mem_cons.1 h with rfl | h
      · simp
      · exact (ih h).imp_right fun hd => by simp [hd]
    · split at h
      · rcases Memory.mem_consUnlessFill h with ⟨rfl, -⟩ | h
        · exact .inl rfl
        · exact .inr (by simp [h])
      · rcases Memory.mem_consUnlessFill h with ⟨rfl, -⟩ | h
        · exact .inl rfl
        · exact .inr h

/-- A byte store keeps the canonical form. -/
theorem Memory.wf_put {m : Memory} (h : Memory.wf m) {a : Nat} (ha : a < 2 ^ 32) (b : Byte) :
    Memory.wf (m.put a b) := by
  induction m with
  | nil => exact Memory.wf_consUnlessFill ha h (by simp)
  | cons c rest ih =>
    have hlt := Memory.wf_head h
    have ht := Memory.wf_tail h
    rw [Memory.put]
    split
    · next hc =>
      refine ⟨List.pairwise_cons.2 ⟨fun d hd => ?_, (ih ht).1⟩, fun d hd => ?_⟩
      · rcases Memory.mem_put hd with e | hd
        · omega
        · exact hlt d hd
      · rcases List.mem_cons.1 hd with rfl | hd
        · exact h.2 _ (by simp)
        · exact (ih ht).2 d hd
    · split
      · next hc => exact Memory.wf_consUnlessFill ha ht (hc ▸ hlt)
      · next h1 h2 =>
        refine Memory.wf_consUnlessFill ha h fun d hd => ?_
        rcases List.mem_cons.1 hd with rfl | hd
        · omega
        · have := hlt d hd; omega

/-! ### Bytes at 32-bit addresses -/

theorem Memory.wf_putByte {m : Memory} (h : Memory.wf m) (a : Word) (b : Byte) : Memory.wf (m.putByte a b) :=
  Memory.wf_put h a.isLt b

theorem Memory.byteAt_putByte {m : Memory} (h : Memory.wf m) (a : Word) (b : Byte) (x : Word) :
    (m.putByte a b).byteAt x = if x = a then b else m.byteAt x := by
  unfold Memory.byteAt Memory.putByte
  rw [Memory.get_put h]
  simp [BitVec.toNat_inj]

theorem Memory.wf_putAll {m : Memory} (h : Memory.wf m) (stores : List (Word × Byte)) :
    Memory.wf (m.putAll stores) := by
  induction stores generalizing m with
  | nil => exact h
  | cons ab rest ih => exact ih (Memory.wf_putByte h _ _)

/-! ### Words -/

/-- Stores made one list after another are the stores of both lists. -/
theorem Memory.putAll_append (m : Memory) (l r : List (Word × Byte)) : m.putAll (l ++ r) = (m.putAll l).putAll r := by
  induction l generalizing m with
  | nil => rfl
  | cons e l ih => exact ih _

/-- A byte no store names is as before. -/
theorem Memory.byteAt_putAll_other {m : Memory} (h : Memory.wf m) {x : Word} (stores : List (Word × Byte))
    (hx : ∀ e ∈ stores, e.1 ≠ x) : (m.putAll stores).byteAt x = m.byteAt x := by
  induction stores generalizing m with
  | nil => rfl
  | cons e rest ih =>
    rw [show m.putAll (e :: rest) = (m.putByte e.1 e.2).putAll rest from rfl,
      ih (Memory.wf_putByte h _ _) fun d hd => hx d (List.mem_cons_of_mem _ hd), Memory.byteAt_putByte h,
      if_neg fun he => hx e List.mem_cons_self he.symm]

theorem Memory.wf_writeWord {m : Memory} (h : Memory.wf m) (a v : Word) : Memory.wf (m.writeWord a v) :=
  Memory.wf_putByte (Memory.wf_putByte (Memory.wf_putByte (Memory.wf_putByte h _ _) _ _) _ _) _ _

/-- Every byte after a word store. -/
theorem Memory.byteAt_writeWord {m : Memory} (h : Memory.wf m) (a v x : Word) :
    (m.writeWord a v).byteAt x =
      if x = a + 3#32 then wordByte v 3
      else if x = a + 2#32 then wordByte v 2
      else if x = a + 1#32 then wordByte v 1
      else if x = a then wordByte v 0
      else m.byteAt x := by
  have h1 := Memory.wf_putByte h a (wordByte v 0)
  have h2 := Memory.wf_putByte h1 (a + 1#32) (wordByte v 1)
  have h3 := Memory.wf_putByte h2 (a + 2#32) (wordByte v 2)
  rw [Memory.writeWord, Memory.byteAt_putByte h3, Memory.byteAt_putByte h2, Memory.byteAt_putByte h1,
    Memory.byteAt_putByte h]

/-- A word is its four bytes. -/
theorem wordByte_append (v : Word) : wordByte v 3 ++ wordByte v 2 ++ wordByte v 1 ++ wordByte v 0 = v := by
  ext i hi
  simp only [wordByte, BitVec.getElem_append, BitVec.getElem_extractLsb']
  split
  · rw [BitVec.getElem_eq_testBit_toNat]; simp [BitVec.getLsbD]
  · split
    · rw [BitVec.getElem_eq_testBit_toNat]; simp only [BitVec.getLsbD]; congr 1; omega
    · split
      · rw [BitVec.getElem_eq_testBit_toNat]; simp only [BitVec.getLsbD]; congr 1; omega
      · rw [BitVec.getElem_eq_testBit_toNat]; simp only [BitVec.getLsbD]; congr 1; omega

/-- A word read back from where it was written is that word. -/
theorem Memory.readWord_writeWord_same {m : Memory} (h : Memory.wf m) (a v : Word) :
    (m.writeWord a v).readWord a = v := by
  have n1 : ∀ x : Word, x + 2#32 ≠ x + 3#32 := by intro x; bv_omega
  have n2 : ∀ x : Word, x + 1#32 ≠ x + 3#32 ∧ x + 1#32 ≠ x + 2#32 := by intro x; constructor <;> bv_omega
  have n3 : ∀ x : Word, x ≠ x + 3#32 ∧ x ≠ x + 2#32 ∧ x ≠ x + 1#32 := by intro x; refine ⟨?_, ?_, ?_⟩ <;> bv_omega
  unfold Memory.readWord
  simp only [Memory.byteAt_writeWord h, if_true, if_neg (n1 a), if_neg (n2 a).1, if_neg (n2 a).2, if_neg (n3 a).1,
    if_neg (n3 a).2.1, if_neg (n3 a).2.2]
  exact wordByte_append v

/-- Byte k of a word read is the byte k addresses up (20_memory.md R43). -/
theorem wordByte_readWord (m : Memory) (a : Word) :
    wordByte (m.readWord a) 0 = m.byteAt a ∧ wordByte (m.readWord a) 1 = m.byteAt (a + 1#32) ∧
      wordByte (m.readWord a) 2 = m.byteAt (a + 2#32) ∧ wordByte (m.readWord a) 3 = m.byteAt (a + 3#32) := by
  refine ⟨?_, ?_, ?_, ?_⟩ <;> ext i hi <;>
    simp only [wordByte, Memory.readWord, BitVec.getElem_extractLsb', BitVec.getLsbD_append] <;>
    (first
      | (rw [if_pos (by omega)]; rw [← BitVec.getLsbD_eq_getElem]; congr 1; omega)
      | (rw [if_neg (by omega), if_pos (by omega)]; rw [← BitVec.getLsbD_eq_getElem]; congr 1; omega)
      | (rw [if_neg (by omega), if_neg (by omega), if_pos (by omega)]; rw [← BitVec.getLsbD_eq_getElem]; congr 1; omega)
      | (rw [if_neg (by omega), if_neg (by omega), if_neg (by omega)]; rw [← BitVec.getLsbD_eq_getElem]; congr 1; omega))

end Sys2Proof
end

