-- ==== Sys2Proof/Laws/Datapath.lean ====
section
/-! SUPPORT. The datapath seen byte by byte: every shift of the block is by whole bytes, so each operation moves, keeps
or clears whole bytes, and two words are equal when their four bytes are. -/

namespace Sys2Proof

/-! ### Words as four bytes -/

theorem eq_of_wordByte {a b : Word} (h : ∀ k, k < 4 → wordByte a k = wordByte b k) : a = b := by
  rw [← wordByte_append a, ← wordByte_append b, h 0 (by omega), h 1 (by omega), h 2 (by omega), h 3 (by omega)]

theorem getLsbD_wordByte (w : Word) (k i : Nat) : (wordByte w k).getLsbD i = (decide (i < 8) && w.getLsbD (8 * k + i)) := by
  simp [wordByte, BitVec.getLsbD_extractLsb']

theorem wordByte_or (a b : Word) (k : Nat) : wordByte (a ||| b) k = wordByte a k ||| wordByte b k := by
  apply BitVec.eq_of_getLsbD_eq; intro i hi
  simp only [getLsbD_wordByte, BitVec.getLsbD_or, hi, decide_true, Bool.true_and]

theorem wordByte_and (a b : Word) (k : Nat) : wordByte (a &&& b) k = wordByte a k &&& wordByte b k := by
  apply BitVec.eq_of_getLsbD_eq; intro i hi
  simp only [getLsbD_wordByte, BitVec.getLsbD_and, hi, decide_true, Bool.true_and]

theorem wordByte_not (a : Word) {k : Nat} (hk : k < 4) : wordByte (~~~a) k = ~~~(wordByte a k) := by
  apply BitVec.eq_of_getLsbD_eq; intro i hi
  have : 8 * k + i < 32 := by omega
  simp only [getLsbD_wordByte, BitVec.getLsbD_not, hi, this, decide_true, Bool.true_and]

/-- A right shift by j bytes brings byte k + j down to byte k. -/
theorem wordByte_shr (a : Word) (j k : Nat) : wordByte (a >>> (8 * j)) k = wordByte a (k + j) := by
  apply BitVec.eq_of_getLsbD_eq; intro i hi
  simp only [getLsbD_wordByte, BitVec.getLsbD_ushiftRight]
  congr 2; omega

/-- A left shift by j bytes brings byte k - j up to byte k and clears the bytes below. -/
theorem wordByte_shl (a : Word) (j : Nat) {k : Nat} (hk : k < 4) :
    wordByte (a <<< (8 * j)) k = if j ≤ k then wordByte a (k - j) else 0#8 := by
  apply BitVec.eq_of_getLsbD_eq; intro i hi
  have h32 : 8 * k + i < 32 := by omega
  split
  · next h =>
    have h1 : ¬ 8 * k + i < 8 * j := by omega
    simp only [getLsbD_wordByte, BitVec.getLsbD_shiftLeft, h32, h1, hi, decide_true, decide_false, Bool.true_and,
      Bool.not_false]
    congr 1; omega
  · next h =>
    have h1 : 8 * k + i < 8 * j := by omega
    simp [getLsbD_wordByte, h1]

theorem getLsbD_mask (n i : Nat) : (mask n).getLsbD i = (decide (i < 32) && decide (i < n)) := by
  rw [mask, BitVec.getLsbD_ofNat, Nat.testBit_two_pow_sub_one]

/-- A mask of n whole bytes is ones in the bytes below n and zero above. -/
theorem wordByte_mask (n : Nat) {k : Nat} (hk : k < 4) : wordByte (mask (8 * n)) k = if k < n then 0xFF#8 else 0#8 := by
  apply BitVec.eq_of_getLsbD_eq; intro i hi
  have h32 : 8 * k + i < 32 := by omega
  split
  · next h =>
    have h1 : 8 * k + i < 8 * n := by omega
    rw [getLsbD_wordByte, getLsbD_mask]
    simp only [hi, h32, h1, decide_true, Bool.true_and]
    interval_cases i <;> rfl
  · next h =>
    have h1 : ¬ 8 * k + i < 8 * n := by omega
    simp [getLsbD_wordByte, getLsbD_mask, h1]

theorem wordByte_high (a : Word) {k : Nat} (hk : 4 ≤ k) : wordByte a k = 0#8 := by
  apply BitVec.eq_of_getLsbD_eq; intro i hi
  rw [getLsbD_wordByte, BitVec.getLsbD_of_ge a (8 * k + i) (by omega)]
  simp

/-! ### Splitting an address -/

theorem offsetOf_lt (ea : Word) : offsetOf ea < 4 := by
  have : (ea &&& 3#32).toNat ≤ 3 := by rw [BitVec.toNat_and]; exact Nat.and_le_right
  unfold offsetOf; omega

theorem offsetOf_eq_mod (ea : Word) : offsetOf ea = ea.toNat % 4 := by
  rw [offsetOf, BitVec.toNat_and]
  exact Nat.and_two_pow_sub_one_eq_mod (n := 2) ea.toNat

theorem baseOf_toNat (ea : Word) : (baseOf ea).toNat = ea.toNat - ea.toNat % 4 := by
  have hmask : baseOf ea = (ea >>> 2) <<< 2 := by
    unfold baseOf
    apply BitVec.eq_of_getLsbD_eq; intro i hi
    rw [BitVec.getLsbD_and, BitVec.getLsbD_shiftLeft, BitVec.getLsbD_ushiftRight]
    have hc : (0xFFFFFFFC#32).getLsbD i = !decide (i < 2) := by interval_cases i <;> rfl
    rw [hc]
    by_cases h : i < 2
    · simp [h]
    · simp [h, hi, show 2 + (i - 2) = i by omega]
  rw [hmask, BitVec.toNat_shiftLeft, BitVec.toNat_ushiftRight]
  have := ea.isLt
  rw [Nat.shiftRight_eq_div_pow, Nat.shiftLeft_eq, Nat.mod_eq_of_lt] <;> omega

/-- The base and the offset are the whole address. -/
theorem baseOf_add_offset (ea : Word) : baseOf ea + BitVec.ofNat 32 (offsetOf ea) = ea := by
  apply BitVec.eq_of_toNat_eq
  have := ea.isLt
  rw [BitVec.toNat_add, baseOf_toNat, BitVec.toNat_ofNat, offsetOf_eq_mod]; omega

theorem baseOf_mod (ea : Word) : (baseOf ea).toNat % 4 = 0 := by rw [baseOf_toNat]; omega

theorem straddles_iff (ea : Word) (w : Width) : straddles ea w = true ↔ 4 < offsetOf ea + w.bytes := by simp [straddles]

/-- The second word exists unless the first is the last of the address space. -/
theorem secondWord_eq_none_iff (base : Word) : secondWord base = none ↔ base = 0xFFFFFFFC#32 := by
  unfold secondWord; split <;> simp_all

theorem secondWord_eq_some {base next : Word} (h : secondWord base = some next) :
    next = base + 4#32 ∧ base ≠ 0xFFFFFFFC#32 := by
  unfold secondWord at h; split at h <;> simp_all

theorem shiftOf_eq (ea : Word) : shiftOf ea = 8 * offsetOf ea := by unfold shiftOf; omega

theorem Width.bytes_pos (w : Width) : 0 < w.bytes ∧ w.bytes ≤ 4 := by cases w <;> decide

/-- A straddling access fails to fit the address space exactly when its base is the last word. -/
theorem straddle_last_iff {ea : Word} {w : Width} (h : straddles ea w = true) :
    baseOf ea = 0xFFFFFFFC#32 ↔ ¬ ea.toNat + w.bytes ≤ 2 ^ 32 := by
  rw [straddles_iff, offsetOf_eq_mod] at h
  have hb := baseOf_toNat ea
  have hw := w.bytes_pos
  have := ea.isLt
  constructor
  · intro e; rw [e] at hb
    change 4294967292 = _ at hb; omega
  · intro hn; apply BitVec.eq_of_toNat_eq; change _ = 4294967292; omega

theorem single_fits {ea : Word} {w : Width} (h : straddles ea w = false) : ea.toNat + w.bytes ≤ 2 ^ 32 := by
  have h' : ¬ 4 < offsetOf ea + w.bytes := by rw [← straddles_iff, h]; simp
  rw [offsetOf_eq_mod] at h'
  have := ea.isLt
  omega

/-! ### The bytes of an access inside its words -/

/-- The byte k addresses up from EA, inside the word at the base or the word after it. -/
theorem byteAt_span (m : Memory) (ea : Word) {k : Nat} (hk : k < 4) :
    m.byteAt (ea + BitVec.ofNat 32 k) =
      if offsetOf ea + k < 4 then wordByte (m.readWord (baseOf ea)) (offsetOf ea + k)
      else wordByte (m.readWord (baseOf ea + 4#32)) (offsetOf ea + k - 4) := by
  have ho := offsetOf_lt ea
  have hea := baseOf_add_offset ea
  generalize baseOf ea = b at *
  generalize offsetOf ea = o at *
  obtain ⟨l0, l1, l2, l3⟩ := wordByte_readWord m b
  obtain ⟨h0, h1, h2, h3⟩ := wordByte_readWord m (b + 4#32)
  subst hea
  interval_cases o <;> interval_cases k <;>
    simp +decide only [l0, l1, l2, l3, h0, h1, h2, BitVec.add_assoc, if_true, if_false, Nat.reduceAdd, Nat.reduceSub,
      BitVec.ofNat_add_ofNat, BitVec.add_zero]

end Sys2Proof
end

