-- ==== Sys2Proof/Laws/State.lean ====
section
/-! SUPPORT. One lemma per field per update of the state, true by rfl, so that no later proof unfolds a record update. -/

namespace Sys2Proof.Machine

/-! `setHalted` -/

@[simp] theorem setHalted_rf (r : HaltReason) (s : State) : (s.setHalted r).rf = s.rf := rfl
@[simp] theorem setHalted_mem (r : HaltReason) (s : State) : (s.setHalted r).mem = s.mem := rfl
@[simp] theorem setHalted_halted (r : HaltReason) (s : State) : (s.setHalted r).halted = true := rfl
@[simp] theorem setHalted_haltReason (r : HaltReason) (s : State) : (s.setHalted r).haltReason = some r := rfl
@[simp] theorem setHalted_request (r : HaltReason) (s : State) : (s.setHalted r).request = s.request := rfl
@[simp] theorem setHalted_response (r : HaltReason) (s : State) : (s.setHalted r).response = s.response := rfl
@[simp] theorem setHalted_holes (r : HaltReason) (s : State) : (s.setHalted r).holes = s.holes := rfl
@[simp] theorem setHalted_irq (r : HaltReason) (s : State) : (s.setHalted r).irq = s.irq := rfl
@[simp] theorem setHalted_portLog (r : HaltReason) (s : State) : (s.setHalted r).portLog = s.portLog := rfl
@[simp] theorem setHalted_inbox (r : HaltReason) (s : State) : (s.setHalted r).inbox = s.inbox := rfl
@[simp] theorem setHalted_draws (r : HaltReason) (s : State) : (s.setHalted r).draws = s.draws := rfl

/-! `clearHalted` -/

@[simp] theorem clearHalted_rf (s : State) : s.clearHalted.rf = s.rf := rfl
@[simp] theorem clearHalted_mem (s : State) : s.clearHalted.mem = s.mem := rfl
@[simp] theorem clearHalted_halted (s : State) : s.clearHalted.halted = false := rfl
@[simp] theorem clearHalted_haltReason (s : State) : s.clearHalted.haltReason = none := rfl
@[simp] theorem clearHalted_request (s : State) : s.clearHalted.request = s.request := rfl
@[simp] theorem clearHalted_response (s : State) : s.clearHalted.response = s.response := rfl
@[simp] theorem clearHalted_holes (s : State) : s.clearHalted.holes = s.holes := rfl
@[simp] theorem clearHalted_irq (s : State) : s.clearHalted.irq = s.irq := rfl
@[simp] theorem clearHalted_portLog (s : State) : s.clearHalted.portLog = s.portLog := rfl
@[simp] theorem clearHalted_inbox (s : State) : s.clearHalted.inbox = s.inbox := rfl
@[simp] theorem clearHalted_draws (s : State) : s.clearHalted.draws = s.draws := rfl

/-! `writeReg` -/

@[simp] theorem writeReg_rf (i : RegIdx) (v : Word) (s : State) : (writeReg i v s).rf = putReg s.rf i v := rfl
@[simp] theorem writeReg_mem (i : RegIdx) (v : Word) (s : State) : (writeReg i v s).mem = s.mem := rfl
@[simp] theorem writeReg_halted (i : RegIdx) (v : Word) (s : State) : (writeReg i v s).halted = s.halted := rfl
@[simp] theorem writeReg_haltReason (i : RegIdx) (v : Word) (s : State) : (writeReg i v s).haltReason = s.haltReason := rfl
@[simp] theorem writeReg_request (i : RegIdx) (v : Word) (s : State) : (writeReg i v s).request = s.request := rfl
@[simp] theorem writeReg_response (i : RegIdx) (v : Word) (s : State) : (writeReg i v s).response = s.response := rfl
@[simp] theorem writeReg_holes (i : RegIdx) (v : Word) (s : State) : (writeReg i v s).holes = s.holes := rfl
@[simp] theorem writeReg_irq (i : RegIdx) (v : Word) (s : State) : (writeReg i v s).irq = s.irq := rfl
@[simp] theorem writeReg_portLog (i : RegIdx) (v : Word) (s : State) : (writeReg i v s).portLog = s.portLog := rfl
@[simp] theorem writeReg_inbox (i : RegIdx) (v : Word) (s : State) : (writeReg i v s).inbox = s.inbox := rfl
@[simp] theorem writeReg_draws (i : RegIdx) (v : Word) (s : State) : (writeReg i v s).draws = s.draws := rfl

/-! `setMem` -/

@[simp] theorem setMem_rf (m : Memory) (s : State) : (setMem m s).rf = s.rf := rfl
@[simp] theorem setMem_mem (m : Memory) (s : State) : (setMem m s).mem = m := rfl
@[simp] theorem setMem_halted (m : Memory) (s : State) : (setMem m s).halted = s.halted := rfl
@[simp] theorem setMem_haltReason (m : Memory) (s : State) : (setMem m s).haltReason = s.haltReason := rfl
@[simp] theorem setMem_request (m : Memory) (s : State) : (setMem m s).request = s.request := rfl
@[simp] theorem setMem_response (m : Memory) (s : State) : (setMem m s).response = s.response := rfl
@[simp] theorem setMem_holes (m : Memory) (s : State) : (setMem m s).holes = s.holes := rfl
@[simp] theorem setMem_irq (m : Memory) (s : State) : (setMem m s).irq = s.irq := rfl
@[simp] theorem setMem_portLog (m : Memory) (s : State) : (setMem m s).portLog = s.portLog := rfl
@[simp] theorem setMem_inbox (m : Memory) (s : State) : (setMem m s).inbox = s.inbox := rfl
@[simp] theorem setMem_draws (m : Memory) (s : State) : (setMem m s).draws = s.draws := rfl

/-! `logPort` -/

@[simp] theorem logPort_rf (t : PortTxn) (s : State) : (logPort t s).rf = s.rf := rfl
@[simp] theorem logPort_mem (t : PortTxn) (s : State) : (logPort t s).mem = s.mem := rfl
@[simp] theorem logPort_halted (t : PortTxn) (s : State) : (logPort t s).halted = s.halted := rfl
@[simp] theorem logPort_haltReason (t : PortTxn) (s : State) : (logPort t s).haltReason = s.haltReason := rfl
@[simp] theorem logPort_request (t : PortTxn) (s : State) : (logPort t s).request = s.request := rfl
@[simp] theorem logPort_response (t : PortTxn) (s : State) : (logPort t s).response = s.response := rfl
@[simp] theorem logPort_holes (t : PortTxn) (s : State) : (logPort t s).holes = s.holes := rfl
@[simp] theorem logPort_irq (t : PortTxn) (s : State) : (logPort t s).irq = s.irq := rfl
@[simp] theorem logPort_portLog (t : PortTxn) (s : State) : (logPort t s).portLog = s.portLog ++ [t] := rfl
@[simp] theorem logPort_inbox (t : PortTxn) (s : State) : (logPort t s).inbox = s.inbox := rfl
@[simp] theorem logPort_draws (t : PortTxn) (s : State) : (logPort t s).draws = s.draws := rfl

/-! `respond` -/

@[simp] theorem respond_rf (pc : Word) (s : State) : (respond pc s).rf = s.rf := rfl
@[simp] theorem respond_mem (pc : Word) (s : State) : (respond pc s).mem = s.mem := rfl
@[simp] theorem respond_halted (pc : Word) (s : State) : (respond pc s).halted = s.halted := rfl
@[simp] theorem respond_haltReason (pc : Word) (s : State) : (respond pc s).haltReason = s.haltReason := rfl
@[simp] theorem respond_request (pc : Word) (s : State) : (respond pc s).request = s.request := rfl
@[simp] theorem respond_response (pc : Word) (s : State) : (respond pc s).response = some (.resume pc) := rfl
@[simp] theorem respond_holes (pc : Word) (s : State) : (respond pc s).holes = s.holes := rfl
@[simp] theorem respond_irq (pc : Word) (s : State) : (respond pc s).irq = s.irq := rfl
@[simp] theorem respond_portLog (pc : Word) (s : State) : (respond pc s).portLog = s.portLog := rfl
@[simp] theorem respond_inbox (pc : Word) (s : State) : (respond pc s).inbox = s.inbox := rfl
@[simp] theorem respond_draws (pc : Word) (s : State) : (respond pc s).draws = s.draws := rfl

/-! `resumeNext` -/

@[simp] theorem resumeNext_rf (s : State) : (resumeNext s).rf = s.rf := rfl
@[simp] theorem resumeNext_mem (s : State) : (resumeNext s).mem = s.mem := rfl
@[simp] theorem resumeNext_halted (s : State) : (resumeNext s).halted = s.halted := rfl
@[simp] theorem resumeNext_haltReason (s : State) : (resumeNext s).haltReason = s.haltReason := rfl
@[simp] theorem resumeNext_request (s : State) : (resumeNext s).request = s.request := rfl
@[simp] theorem resumeNext_response (s : State) : (resumeNext s).response = some (.resume (s.request.faultingPc + 4#32)) := rfl
@[simp] theorem resumeNext_holes (s : State) : (resumeNext s).holes = s.holes := rfl
@[simp] theorem resumeNext_irq (s : State) : (resumeNext s).irq = s.irq := rfl
@[simp] theorem resumeNext_portLog (s : State) : (resumeNext s).portLog = s.portLog := rfl
@[simp] theorem resumeNext_inbox (s : State) : (resumeNext s).inbox = s.inbox := rfl
@[simp] theorem resumeNext_draws (s : State) : (resumeNext s).draws = s.draws := rfl

/-! `raiseHalt` -/

@[simp] theorem raiseHalt_rf (r : HaltReason) (s : State) : (raiseHalt r s).rf = s.rf := rfl
@[simp] theorem raiseHalt_mem (r : HaltReason) (s : State) : (raiseHalt r s).mem = s.mem := rfl
@[simp] theorem raiseHalt_halted (r : HaltReason) (s : State) : (raiseHalt r s).halted = true := rfl
@[simp] theorem raiseHalt_haltReason (r : HaltReason) (s : State) : (raiseHalt r s).haltReason = some r := rfl
@[simp] theorem raiseHalt_request (r : HaltReason) (s : State) : (raiseHalt r s).request = s.request := rfl
@[simp] theorem raiseHalt_response (r : HaltReason) (s : State) : (raiseHalt r s).response = some .halt := rfl
@[simp] theorem raiseHalt_holes (r : HaltReason) (s : State) : (raiseHalt r s).holes = s.holes := rfl
@[simp] theorem raiseHalt_irq (r : HaltReason) (s : State) : (raiseHalt r s).irq = s.irq := rfl
@[simp] theorem raiseHalt_portLog (r : HaltReason) (s : State) : (raiseHalt r s).portLog = s.portLog := rfl
@[simp] theorem raiseHalt_inbox (r : HaltReason) (s : State) : (raiseHalt r s).inbox = s.inbox := rfl
@[simp] theorem raiseHalt_draws (r : HaltReason) (s : State) : (raiseHalt r s).draws = s.draws := rfl

/-! `accept` -/

@[simp] theorem accept_rf (f : Option RegFile) (q : Request) (s : State) : (accept f q s).rf = f.getD s.rf := rfl
@[simp] theorem accept_mem (f : Option RegFile) (q : Request) (s : State) : (accept f q s).mem = s.mem := rfl
@[simp] theorem accept_halted (f : Option RegFile) (q : Request) (s : State) : (accept f q s).halted = s.halted := rfl
@[simp] theorem accept_haltReason (f : Option RegFile) (q : Request) (s : State) : (accept f q s).haltReason = s.haltReason := rfl
@[simp] theorem accept_request (f : Option RegFile) (q : Request) (s : State) : (accept f q s).request = q := rfl
@[simp] theorem accept_response (f : Option RegFile) (q : Request) (s : State) : (accept f q s).response = none := rfl
@[simp] theorem accept_holes (f : Option RegFile) (q : Request) (s : State) : (accept f q s).holes = s.holes := rfl
@[simp] theorem accept_irq (f : Option RegFile) (q : Request) (s : State) : (accept f q s).irq = s.irq := rfl
@[simp] theorem accept_portLog (f : Option RegFile) (q : Request) (s : State) : (accept f q s).portLog = [] := rfl
@[simp] theorem accept_inbox (f : Option RegFile) (q : Request) (s : State) : (accept f q s).inbox = s.inbox := rfl
@[simp] theorem accept_draws (f : Option RegFile) (q : Request) (s : State) : (accept f q s).draws = s.draws := rfl

/-! `applyReset` -/

@[simp] theorem applyReset_rf (s : State) : (applyReset s).rf = s.rf := rfl
@[simp] theorem applyReset_mem (s : State) : (applyReset s).mem = s.mem := rfl
@[simp] theorem applyReset_halted (s : State) : (applyReset s).halted = false := rfl
@[simp] theorem applyReset_haltReason (s : State) : (applyReset s).haltReason = none := rfl
@[simp] theorem applyReset_request (s : State) : (applyReset s).request = s.request := rfl
@[simp] theorem applyReset_response (s : State) : (applyReset s).response = none := rfl
@[simp] theorem applyReset_holes (s : State) : (applyReset s).holes = s.holes := rfl
@[simp] theorem applyReset_irq (s : State) : (applyReset s).irq = s.irq := rfl
@[simp] theorem applyReset_portLog (s : State) : (applyReset s).portLog = [] := rfl
@[simp] theorem applyReset_inbox (s : State) : (applyReset s).inbox = s.inbox := rfl
@[simp] theorem applyReset_draws (s : State) : (applyReset s).draws = s.draws := rfl

/-! Admission depends on the parameters of the environment alone. -/

theorem admits_congr {s t : State} (h : t.holes = s.holes) (a : Word) : admits t a = admits s a := by
  simp [admits, h]

@[simp] theorem admits_writeReg (i : RegIdx) (v : Word) (s : State) (a : Word) : admits (writeReg i v s) a = admits s a := rfl
@[simp] theorem admits_logPort (t : PortTxn) (s : State) (a : Word) : admits (logPort t s) a = admits s a := rfl
@[simp] theorem admits_setMem (m : Memory) (s : State) (a : Word) : admits (setMem m s) a = admits s a := rfl
@[simp] theorem admits_respond (pc : Word) (s : State) (a : Word) : admits (respond pc s) a = admits s a := rfl
@[simp] theorem admits_resumeNext (s : State) (a : Word) : admits (resumeNext s) a = admits s a := rfl
@[simp] theorem admits_raiseHalt (r : HaltReason) (s : State) (a : Word) : admits (raiseHalt r s) a = admits s a := rfl
@[simp] theorem admits_accept (f : Option RegFile) (q : Request) (s : State) (a : Word) : admits (accept f q s) a = admits s a := rfl

/-! The memory port: what it does where the address is admitted, and that it goes on nowhere else. -/

theorem portRead_admitted {a : Word} {s : State} (h : admits s a = true) (k : Word → State → Result) :
    portRead a s k = k (s.mem.readWord a) (logPort (.read a) s) := by simp [portRead, h]

theorem portRead_next {a : Word} {s t : State} {k : Word → State → Result} (h : portRead a s k = .next t) :
    admits s a = true ∧ k (s.mem.readWord a) (logPort (.read a) s) = .next t := by
  unfold portRead at h
  split at h
  · exact ⟨‹_›, h⟩
  · exact nomatch h

theorem portRead_refused {a : Word} {s : State} (h : admits s a = false) (k : Word → State → Result) :
    portRead a s k = .fault (.stuck a) := by simp [portRead, h]

theorem portWrite_admitted {a : Word} {s : State} (h : admits s a = true) (v : Word) (k : State → Result) :
    portWrite a v s k = k (logPort (.write a v) (setMem (s.mem.writeWord a v) s)) := by simp [portWrite, h]

theorem portWrite_next {a v : Word} {s t : State} {k : State → Result} (h : portWrite a v s k = .next t) :
    admits s a = true ∧ k (logPort (.write a v) (setMem (s.mem.writeWord a v) s)) = .next t := by
  unfold portWrite at h
  split at h
  · exact ⟨‹_›, h⟩
  · exact nomatch h

/-! Registers. -/

@[simp] theorem readReg_zero (s : State) : readReg 0 s = 0#32 := by simp [readReg]

theorem readReg_of_ne {i : RegIdx} (h : i ≠ 0) (s : State) : readReg i s = s.rf[i] := by simp [readReg, h]

@[simp] theorem putReg_zero (rf : RegFile) (v : Word) : putReg rf 0 v = rf := by simp [putReg]

theorem putReg_same {i : RegIdx} (h : i ≠ 0) (rf : RegFile) (v : Word) : (putReg rf i v)[i] = v := by
  simp [putReg, h]

theorem putReg_other {i j : RegIdx} (h : j ≠ i) (rf : RegFile) (v : Word) : (putReg rf i v)[j] = rf[j] := by
  unfold putReg
  split
  · rfl
  · exact Vector.getElem_set_ne i.isLt j.isLt (fun e => h (Fin.ext e.symm))

theorem putReg_slotZero (rf : RegFile) (i : RegIdx) (v : Word) : (putReg rf i v)[0] = rf[0] := by
  by_cases h : (0 : RegIdx) = i
  · subst h; simp
  · exact putReg_other h rf v

end Sys2Proof.Machine
end

