-- ==== Sys2Proof/Laws/Accesses.lean ====
section
/-! SUPPORT. What the two emulators do with the bytes of an access, whichever path they take: a load takes the W bytes
at EA, a store replaces them and no other, and either touches only aligned words that `served` admits. -/

namespace Sys2Proof.Machine

/-! ### Loads -/

/-- The extension policy by form (40_datapath.md R97). -/
theorem extendLoad_unsigned (w : Width) (t : Word) : extendLoad false w t = t := rfl

theorem extendLoad_word (signed : Bool) (t : Word) : extendLoad signed .word t = t := by cases signed <;> rfl

theorem extendLoad_byte (t : Word) : extendLoad true .byte t = signExtend t 8 := rfl

theorem extendLoad_half (t : Word) : extendLoad true .half t = signExtend t 16 := rfl

/-- The bytes of a little-endian concatenation. -/
theorem wordByte_leBytes (s : State) (a : Word) {n : Nat} (hn : n ≤ 4) {k : Nat} (hk : k < 4) :
    wordByte (s.leBytes a n) k = if k < n then s.byteAt (a + BitVec.ofNat 32 k) else 0#8 := by
  induction n with
  | zero =>
    apply BitVec.eq_of_getLsbD_eq; intro i hi
    simp only [State.leBytes, getLsbD_wordByte, Nat.not_lt_zero, if_false]
    simp only [BitVec.getLsbD_zero, Bool.and_false]
  | succ n ih =>
    have hset : ∀ j, wordByte ((s.byteAt (a + BitVec.ofNat 32 n)).setWidth 32) j =
        if j = 0 then s.byteAt (a + BitVec.ofNat 32 n) else 0#8 := by
      intro j
      apply BitVec.eq_of_getLsbD_eq; intro i hi
      rw [getLsbD_wordByte, BitVec.getLsbD_setWidth]
      split
      · next h => subst h; simp [hi]; omega
      · next h =>
        rw [BitVec.getLsbD_of_ge _ (8 * j + i) (by omega)]; simp
    rw [State.leBytes, wordByte_or, ih (by omega), wordByte_shl _ _ hk, hset]
    by_cases h1 : k < n
    · simp [h1, show ¬ n ≤ k by omega, show k < n + 1 by omega]
    · by_cases h2 : k = n
      · subst h2; simp
      · simp [h1, show ¬ k < n + 1 by omega, show n ≤ k by omega, show k - n ≠ 0 by omega]

theorem leBytes_two (s : State) (ea : Word) :
    s.leBytes ea 2 = (s.byteAt (ea + 1#32) ++ s.byteAt ea).setWidth 32 := by
  apply BitVec.eq_of_getLsbD_eq
  intro j hj
  simp only [State.leBytes]
  rw [BitVec.getLsbD_setWidth, BitVec.getLsbD_append]
  simp
  by_cases h : j < 8
  · simp [h, hj]
  · simp [h, hj]
    rw [BitVec.getLsbD_of_ge _ j (by omega), Bool.false_or, show decide (j - 8 < 32) = true by simp; omega,
      Bool.true_and]

theorem leBytes_four (s : State) (ea : Word) :
    s.leBytes ea 4 = s.byteAt (ea + 3#32) ++ s.byteAt (ea + 2#32) ++ s.byteAt (ea + 1#32) ++ s.byteAt ea := by
  refine eq_of_wordByte fun k hk => ?_
  rw [wordByte_leBytes s ea (by omega) hk, if_pos hk]
  obtain ⟨a, b, c, d⟩ := wordByte_readWord s.mem ea
  rw [show s.byteAt (ea + 3#32) ++ s.byteAt (ea + 2#32) ++ s.byteAt (ea + 1#32) ++ s.byteAt ea = s.mem.readWord ea
    from rfl]
  interval_cases k
  · rw [a, BitVec.add_zero]; rfl
  · rw [b]; rfl
  · rw [c]; rfl
  · rw [d]; rfl

/-- Merge correctness on the single-word path (40_datapath.md R94, R96, R105). -/
theorem truncate_alignSingle {ea : Word} {w : Width} (h : straddles ea w = false) (s : State) :
    truncateTo w (alignSingle (s.mem.readWord (baseOf ea)) (shiftOf ea)) = s.leBytes ea w.bytes := by
  have h' : ¬ 4 < offsetOf ea + w.bytes := by rw [← straddles_iff, h]; simp
  have hw := w.bytes_pos
  refine eq_of_wordByte fun k hk => ?_
  rw [wordByte_leBytes s ea hw.2 hk, truncateTo, wordByte_and, Width.bits, wordByte_mask _ hk, alignSingle, shiftOf_eq,
    wordByte_shr, State.byteAt, byteAt_span s.mem ea hk, Nat.add_comm k]
  split
  · next hkw => rw [if_pos (by omega)]; exact BitVec.and_allOnes
  · exact BitVec.and_zero

/-- Merge correctness on the straddling path (40_datapath.md R95, R96, R105). -/
theorem truncate_mergeLoad (ea : Word) (w : Width) (s : State) :
    truncateTo w (mergeLoad (s.mem.readWord (baseOf ea)) (s.mem.readWord (baseOf ea + 4#32)) (shiftOf ea)) =
      s.leBytes ea w.bytes := by
  have hw := w.bytes_pos
  have ho := offsetOf_lt ea
  refine eq_of_wordByte fun k hk => ?_
  rw [wordByte_leBytes s ea hw.2 hk, truncateTo, wordByte_and, Width.bits, wordByte_mask _ hk, mergeLoad, shiftOf_eq,
    wordByte_or, wordByte_shr, show 32 - 8 * offsetOf ea = 8 * (4 - offsetOf ea) by omega, wordByte_shl _ _ hk,
    State.byteAt, byteAt_span s.mem ea hk, Nat.add_comm k]
  by_cases hkw : k < w.bytes
  · rw [if_pos hkw, if_pos hkw, show (0xFF#8) = BitVec.allOnes 8 from rfl, BitVec.and_allOnes]
    by_cases hlo : offsetOf ea + k < 4
    · rw [if_pos hlo, if_neg (by omega), BitVec.or_zero]
    · rw [if_neg hlo, if_pos (by omega), wordByte_high _ (by omega), BitVec.zero_or]
      congr 1; omega
  · rw [if_neg hkw, if_neg hkw, BitVec.and_zero]

/-! ### The words an access touches -/

theorem served_base {s : State} {ea : Word} {w : Width} (h : served s ea w) : admits s (baseOf ea) = true := by
  have := h 0 w.bytes_pos.1
  rwa [BitVec.add_zero] at this

theorem served_next {s : State} {ea : Word} {w : Width} (h : served s ea w) (hs : straddles ea w = true) :
    admits s (baseOf ea + 4#32) = true := by
  rw [straddles_iff] at hs
  have ho := offsetOf_lt ea
  have hw := w.bytes_pos
  have hk := h (4 - offsetOf ea) (by omega)
  have hb : baseOf (ea + BitVec.ofNat 32 (4 - offsetOf ea)) = baseOf ea + 4#32 := by
    have hsum := baseOf_add_offset ea
    have : ea + BitVec.ofNat 32 (4 - offsetOf ea) = baseOf ea + 4#32 := by
      rw [← hsum, BitVec.add_assoc, BitVec.ofNat_add_ofNat, hsum]
      congr 2; omega
    rw [this]
    apply BitVec.eq_of_toNat_eq
    have hm := baseOf_mod ea
    have hlt := (baseOf ea).isLt
    rw [baseOf_toNat, BitVec.toNat_add]
    change ((baseOf ea).toNat + 4) % 2 ^ 32 - ((baseOf ea).toNat + 4) % 2 ^ 32 % 4 = ((baseOf ea).toNat + 4) % 2 ^ 32
    omega
  rwa [hb] at hk

/-- The port transactions of a load (20_memory.md R46). -/
def loadPort (ea : Word) (w : Width) : List PortTxn :=
  if straddles ea w then [.read (baseOf ea), .read (baseOf ea + 4#32)] else [.read (baseOf ea)]

theorem base_mem_loadPort (ea : Word) (w : Width) : PortTxn.read (baseOf ea) ∈ loadPort ea w := by
  unfold loadPort; split <;> exact List.mem_cons_self

theorem next_mem_loadPort {ea : Word} {w : Width} (h : straddles ea w = true) :
    PortTxn.read (baseOf ea + 4#32) ∈ loadPort ea w := by
  rw [loadPort, if_pos h]; exact List.mem_cons_of_mem _ List.mem_cons_self

theorem fits_second {ea : Word} {w : Width} (hf : fitsSpace ea w) (hs : straddles ea w = true) :
    secondWord (baseOf ea) = some (baseOf ea + 4#32) := by
  have : baseOf ea ≠ 0xFFFFFFFC#32 := fun e => (straddle_last_iff hs).1 e hf
  simp [secondWord, this]

theorem overflow_second {ea : Word} {w : Width} (hf : ¬ fitsSpace ea w) :
    straddles ea w = true ∧ secondWord (baseOf ea) = none := by
  have hs : straddles ea w = true := by
    cases h : straddles ea w
    · exact absurd (single_fits h) hf
    · rfl
  exact ⟨hs, (secondWord_eq_none_iff _).2 ((straddle_last_iff hs).2 hf)⟩

/-- The state a completed load leaves: the W bytes at EA extended into rd, and a resume (41_loads.md R110). -/
def loadDone (w : Width) (signed : Bool) (rd : RegIdx) (ea : Word) (s : State) : State :=
  resumeNext (writeReg rd (extendLoad signed w (s.leBytes ea w.bytes)) { s with portLog := s.portLog ++ loadPort ea w })

/-- A load whose access fits the space and whose port transactions are admitted completes (41_loads.md R110). -/
theorem emulateLoad_admitted {w : Width} {rs1 : RegIdx} {imm : Word} {s : State} (signed : Bool) (rd : RegIdx)
    (hf : fitsSpace (effectiveAddress rs1 imm s) w)
    (ha : ∀ t ∈ loadPort (effectiveAddress rs1 imm s) w, admits s t.addr = true) :
    emulateLoad w signed rd rs1 imm s = .next (loadDone w signed rd (effectiveAddress rs1 imm s) s) := by
  unfold emulateLoad loadDone
  generalize effectiveAddress rs1 imm s = ea at *
  cases hs : straddles ea w
  · have hb : admits s (baseOf ea) = true := ha _ (base_mem_loadPort ea w)
    simp only [Bool.false_eq_true, if_false, portRead_admitted hb, finishLoad, truncate_alignSingle hs, loadPort, hs]
    rfl
  · have hb : admits s (baseOf ea) = true := ha _ (base_mem_loadPort ea w)
    have hn : admits s (baseOf ea + 4#32) = true := ha _ (next_mem_loadPort hs)
    simp only [fits_second hf hs, portRead_admitted hb]
    rw [if_pos hs, portRead_admitted (by exact hn), logPort_mem, finishLoad, truncate_mergeLoad]
    simp only [loadPort, hs, if_true, logPort, List.append_assoc, List.cons_append, List.nil_append]

theorem served_loadPort {s : State} {ea : Word} {w : Width} (h : served s ea w) :
    ∀ t ∈ loadPort ea w, admits s t.addr = true := by
  unfold loadPort
  split
  · next hs => simpa [PortTxn.addr] using ⟨served_base h, served_next h hs⟩
  · simpa [PortTxn.addr] using served_base h

/-- A load whose second word lies beyond the address space halts before it touches anything (40_datapath.md R93). -/
theorem emulateLoad_overflows {w : Width} {rs1 : RegIdx} {imm : Word} {s : State} (signed : Bool) (rd : RegIdx)
    (hf : ¬ fitsSpace (effectiveAddress rs1 imm s) w) :
    emulateLoad w signed rd rs1 imm s = .next (raiseHalt .addressOverflow s) := by
  obtain ⟨hs, hn⟩ := overflow_second hf
  simp only [emulateLoad, hs, if_true, hn]

/-- The first port transaction of a load at an address that is not admitted leaves it stuck (20_memory.md R50). -/
theorem emulateLoad_stuck {w : Width} {rs1 : RegIdx} {imm : Word} {s : State} (signed : Bool) (rd : RegIdx)
    (hf : fitsSpace (effectiveAddress rs1 imm s) w) :
    let ea := effectiveAddress rs1 imm s
    (admits s (baseOf ea) = false → emulateLoad w signed rd rs1 imm s = .fault (.stuck (baseOf ea))) ∧
    (admits s (baseOf ea) = true → straddles ea w = true → admits s (baseOf ea + 4#32) = false →
      emulateLoad w signed rd rs1 imm s = .fault (.stuck (baseOf ea + 4#32))) := by
  unfold emulateLoad
  generalize effectiveAddress rs1 imm s = ea at *
  constructor
  · intro h
    cases hs : straddles ea w
    · simp only [hs, Bool.false_eq_true, if_false, portRead_refused h]
    · simp only [hs, if_true, fits_second hf hs, portRead_refused h]
  · intro h hs hn
    simp only [hs, if_true, fits_second hf hs, portRead_admitted h]
    rw [portRead_refused (by exact hn)]

/-- Everything a load can do when it answers a next state: halt on the second word's address, or complete, every port
transaction having been admitted. -/
theorem emulateLoad_cases {w : Width} {signed : Bool} {rd rs1 : RegIdx} {imm : Word} {s t : State}
    (h : emulateLoad w signed rd rs1 imm s = .next t) :
    (¬ fitsSpace (effectiveAddress rs1 imm s) w ∧ t = raiseHalt .addressOverflow s) ∨
    (fitsSpace (effectiveAddress rs1 imm s) w ∧
      (∀ x ∈ loadPort (effectiveAddress rs1 imm s) w, admits s x.addr = true) ∧
      t = loadDone w signed rd (effectiveAddress rs1 imm s) s) := by
  by_cases hf : fitsSpace (effectiveAddress rs1 imm s) w
  · have ha : ∀ x ∈ loadPort (effectiveAddress rs1 imm s) w, admits s x.addr = true := by
      unfold emulateLoad at h
      generalize effectiveAddress rs1 imm s = ea at *
      cases hs : straddles ea w
      · simp only [hs, Bool.false_eq_true, if_false] at h
        simpa [loadPort, hs, PortTxn.addr] using (portRead_next h).1
      · simp only [hs, if_true, fits_second hf hs] at h
        obtain ⟨hb, h⟩ := portRead_next h
        simpa [loadPort, hs, PortTxn.addr] using ⟨hb, (portRead_next h).1⟩
    rw [emulateLoad_admitted signed rd hf ha] at h
    injection h with h
    exact .inr ⟨hf, ha, h.symm⟩
  · rw [emulateLoad_overflows signed rd hf] at h
    injection h with h
    exact .inl ⟨hf, h.symm⟩

/-! ### Stores -/

/-- The bytes a store writes: `val[8k+7 : 8k]` is byte k of `x[rs2]` for k below W (40_datapath.md R98). -/
theorem wordByte_storeValue (w : Width) (v : Word) {k : Nat} (hk : k < 4) :
    wordByte (storeValue w v) k = if k < w.bytes then wordByte v k else 0#8 := by
  rw [storeValue, wordByte_and, Width.bits, wordByte_mask _ hk]
  split
  · exact BitVec.and_allOnes
  · exact BitVec.and_zero

/-- The low word's bytes after a straddling store (40_datapath.md R100). -/
theorem wordByte_mergeStoreLow (lo val : Word) {o : Nat} {k : Nat} (hk : k < 4) :
    wordByte (mergeStoreLow lo val (8 * o)) k = if k < o then wordByte lo k else wordByte val (k - o) := by
  rw [mergeStoreLow, wordByte_or, wordByte_and, wordByte_mask _ hk, wordByte_shl _ _ hk]
  by_cases h : k < o
  · rw [if_pos h, if_pos h, if_neg (by omega), BitVec.or_zero]; exact BitVec.and_allOnes
  · rw [if_neg h, if_neg h, if_pos (by omega), BitVec.and_zero, BitVec.zero_or]

/-- The high word's bytes after a straddling store (40_datapath.md R101). -/
theorem wordByte_mergeStoreHigh (hi v : Word) {w : Width} {o : Nat} (ho : o < 4) (hs : 4 < o + w.bytes) {k : Nat}
    (hk : k < 4) :
    wordByte (mergeStoreHigh hi (storeValue w v) (o + w.bytes - 4) (8 * o)) k =
      if k < o + w.bytes - 4 then wordByte (storeValue w v) (k + 4 - o) else wordByte hi k := by
  have hw := w.bytes_pos
  rw [mergeStoreHigh, wordByte_or, wordByte_and, wordByte_not _ hk, wordByte_mask _ hk,
    show 32 - 8 * o = 8 * (4 - o) by omega, wordByte_shr, show k + (4 - o) = k + 4 - o by omega]
  by_cases h : k < o + w.bytes - 4
  · rw [if_pos h, if_pos h, show ~~~(0xFF#8) = 0#8 from rfl, BitVec.and_zero, BitVec.zero_or]
  · rw [if_neg h, if_neg h, show ~~~(0#8) = BitVec.allOnes 8 from rfl, BitVec.and_allOnes]
    have : wordByte (storeValue w v) (k + 4 - o) = 0#8 := by
      by_cases h4 : k + 4 - o < 4
      · rw [wordByte_storeValue w v h4, if_neg (by omega)]
      · exact wordByte_high _ (by omega)
    rw [this, BitVec.or_zero]

/-- The word's bytes after a single-word store (40_datapath.md R99). -/
theorem wordByte_mergeStore (word v : Word) {w : Width} {o : Nat} (hs : o + w.bytes ≤ 4) {k : Nat} (hk : k < 4) :
    wordByte (mergeStore word (storeValue w v) w (8 * o)) k =
      if k < o then wordByte word k else if k < o + w.bytes then wordByte (storeValue w v) (k - o) else wordByte word k := by
  have hw := w.bytes_pos
  rw [mergeStore, wordByte_or, wordByte_and, wordByte_not _ hk, wordByte_shl _ _ hk, wordByte_shl _ _ hk, Width.bits]
  by_cases h : k < o
  · rw [if_pos h, if_neg (by omega), if_neg (by omega), BitVec.or_zero]; exact BitVec.and_allOnes
  · rw [if_neg h, if_pos (by omega), if_pos (by omega), wordByte_mask _ (by omega)]
    by_cases h2 : k < o + w.bytes
    · rw [if_pos h2, if_pos (by omega), show ~~~(0xFF#8) = 0#8 from rfl, BitVec.and_zero, BitVec.zero_or]
    · rw [if_neg h2, if_neg (by omega), show ~~~(0#8) = BitVec.allOnes 8 from rfl, BitVec.and_allOnes,
        wordByte_storeValue w v (by omega), if_neg (by omega), BitVec.or_zero]

/-- Memory after the word write or writes of a store. -/
def storeMem (ea v : Word) (w : Width) (m : Memory) : Memory :=
  if straddles ea w then
    (m.writeWord (baseOf ea) (mergeStoreLow (m.readWord (baseOf ea)) (storeValue w v) (shiftOf ea))).writeWord
      (baseOf ea + 4#32)
      (mergeStoreHigh (m.readWord (baseOf ea + 4#32)) (storeValue w v) (highBytes ea w) (shiftOf ea))
  else m.writeWord (baseOf ea) (mergeStore (m.readWord (baseOf ea)) (storeValue w v) w (shiftOf ea))

/-- The port transactions of a store (20_memory.md R46). -/
def storePort (ea v : Word) (w : Width) (m : Memory) : List PortTxn :=
  if straddles ea w then
    [.read (baseOf ea), .read (baseOf ea + 4#32),
      .write (baseOf ea) (mergeStoreLow (m.readWord (baseOf ea)) (storeValue w v) (shiftOf ea)),
      .write (baseOf ea + 4#32)
        (mergeStoreHigh (m.readWord (baseOf ea + 4#32)) (storeValue w v) (highBytes ea w) (shiftOf ea))]
  else
    [.read (baseOf ea),
      .write (baseOf ea) (mergeStore (m.readWord (baseOf ea)) (storeValue w v) w (shiftOf ea))]

/-- The state a completed store leaves (42_stores.md R130). -/
def storeDone (w : Width) (ea v : Word) (s : State) : State :=
  resumeNext { s with mem := storeMem ea v w s.mem, portLog := s.portLog ++ storePort ea v w s.mem }

/-- A store whose access fits the space and whose port transactions are admitted completes (42_stores.md R130). -/
theorem emulateStore_admitted {w : Width} {rs1 : RegIdx} {imm : Word} {s : State} (rs2 : RegIdx)
    (hf : fitsSpace (effectiveAddress rs1 imm s) w)
    (ha : ∀ t ∈ loadPort (effectiveAddress rs1 imm s) w, admits s t.addr = true) :
    emulateStore w rs2 rs1 imm s = .next (storeDone w (effectiveAddress rs1 imm s) (readReg rs2 s) s) := by
  unfold emulateStore storeDone
  generalize effectiveAddress rs1 imm s = ea at *
  generalize readReg rs2 s = v at *
  cases hs : straddles ea w
  · have hb : admits s (baseOf ea) = true := ha _ (base_mem_loadPort ea w)
    simp only [portRead_admitted hb]
    rw [portWrite_admitted (by exact hb)]
    simp only [storeMem, storePort, hs, Bool.false_eq_true, if_false, logPort, setMem, List.append_assoc,
      List.cons_append, List.nil_append]
  · have hb : admits s (baseOf ea) = true := ha _ (base_mem_loadPort ea w)
    have hn : admits s (baseOf ea + 4#32) = true := ha _ (next_mem_loadPort hs)
    simp only [fits_second hf hs, portRead_admitted hb]
    rw [if_pos hs, portRead_admitted (by exact hn), portWrite_admitted (by exact hb), portWrite_admitted (by exact hn)]
    simp only [storeMem, storePort, hs, if_true, logPort, setMem, List.append_assoc, List.cons_append, List.nil_append]

/-- A store whose second word lies beyond the address space halts before it touches anything (40_datapath.md R93). -/
theorem emulateStore_overflows {w : Width} {rs1 : RegIdx} {imm : Word} {s : State} (rs2 : RegIdx)
    (hf : ¬ fitsSpace (effectiveAddress rs1 imm s) w) :
    emulateStore w rs2 rs1 imm s = .next (raiseHalt .addressOverflow s) := by
  obtain ⟨hs, hn⟩ := overflow_second hf
  simp only [emulateStore, hs, if_true, hn]

/-- The first port transaction of a store at an address that is not admitted leaves it stuck (20_memory.md R50). -/
theorem emulateStore_stuck {w : Width} {rs1 : RegIdx} {imm : Word} {s : State} (rs2 : RegIdx) (hf : fitsSpace (effectiveAddress rs1 imm s) w) :
    let ea := effectiveAddress rs1 imm s
    (admits s (baseOf ea) = false → emulateStore w rs2 rs1 imm s = .fault (.stuck (baseOf ea))) ∧
    (admits s (baseOf ea) = true → straddles ea w = true → admits s (baseOf ea + 4#32) = false →
      emulateStore w rs2 rs1 imm s = .fault (.stuck (baseOf ea + 4#32))) := by
  unfold emulateStore
  generalize effectiveAddress rs1 imm s = ea at *
  constructor
  · intro h
    cases hs : straddles ea w
    · simp only [hs, Bool.false_eq_true, if_false, portRead_refused h]
    · simp only [hs, if_true, fits_second hf hs, portRead_refused h]
  · intro h hs hn
    simp only [hs, if_true, fits_second hf hs, portRead_admitted h]
    rw [portRead_refused (by exact hn)]

/-- Everything a store can do when it answers a next state. -/
theorem emulateStore_cases {w : Width} {rs2 rs1 : RegIdx} {imm : Word} {s t : State}
    (h : emulateStore w rs2 rs1 imm s = .next t) :
    (¬ fitsSpace (effectiveAddress rs1 imm s) w ∧ t = raiseHalt .addressOverflow s) ∨
    (fitsSpace (effectiveAddress rs1 imm s) w ∧
      (∀ x ∈ loadPort (effectiveAddress rs1 imm s) w, admits s x.addr = true) ∧
      t = storeDone w (effectiveAddress rs1 imm s) (readReg rs2 s) s) := by
  by_cases hf : fitsSpace (effectiveAddress rs1 imm s) w
  · have ha : ∀ x ∈ loadPort (effectiveAddress rs1 imm s) w, admits s x.addr = true := by
      unfold emulateStore at h
      generalize effectiveAddress rs1 imm s = ea at *
      cases hs : straddles ea w
      · simp only [hs, Bool.false_eq_true, if_false] at h
        simpa [loadPort, hs, PortTxn.addr] using (portRead_next h).1
      · simp only [hs, if_true, fits_second hf hs] at h
        obtain ⟨hb, h⟩ := portRead_next h
        simpa [loadPort, hs, PortTxn.addr] using ⟨hb, (portRead_next h).1⟩
    rw [emulateStore_admitted rs2 hf ha] at h
    injection h with h
    exact .inr ⟨hf, ha, h.symm⟩
  · rw [emulateStore_overflows rs2 hf] at h
    injection h with h
    exact .inl ⟨hf, h.symm⟩

/-! ### Memory after a store, byte by byte -/

/-- Any byte is the byte of the aligned word that holds it (20_memory.md R43). -/
theorem byteAt_eq_wordByte (m : Memory) (x : Word) : m.byteAt x = wordByte (m.readWord (baseOf x)) (offsetOf x) := by
  have h := byteAt_span m x (k := 0) (by omega)
  rwa [BitVec.add_zero, Nat.add_zero, if_pos (offsetOf_lt x)] at h

/-- A write of the aligned word at a base replaces the bytes whose base that is. -/
theorem byteAt_writeWord_base {m : Memory} (h : Memory.wf m) (ea v x : Word) :
    (m.writeWord (baseOf ea) v).byteAt x = if baseOf x = baseOf ea then wordByte v (offsetOf x) else m.byteAt x := by
  have hx := baseOf_add_offset x
  have ho := offsetOf_lt x
  have hxm := baseOf_mod x
  have hm := baseOf_mod ea
  rw [Memory.byteAt_writeWord h]
  generalize baseOf x = bx at *
  generalize baseOf ea = b at *
  generalize offsetOf x = o at *
  subst hx
  by_cases hb : bx = b
  · subst hb
    rw [if_pos rfl]
    interval_cases o
    · rw [if_neg (by bv_omega), if_neg (by bv_omega), if_neg (by bv_omega), if_pos (by bv_omega)]
    · rw [if_neg (by bv_omega), if_neg (by bv_omega), if_pos rfl]
    · rw [if_neg (by bv_omega), if_pos rfl]
    · rw [if_pos rfl]
  · rw [if_neg hb]
    have hne : bx.toNat ≠ b.toNat := fun e => hb (BitVec.eq_of_toNat_eq e)
    have h1 := bx.isLt
    have h2 := b.isLt
    have key : ∀ j, j < 4 → bx + BitVec.ofNat 32 o ≠ b + BitVec.ofNat 32 j := by
      intro j hj e
      have e := congrArg BitVec.toNat e
      simp only [BitVec.toNat_add, BitVec.toNat_ofNat] at e
      omega
    have k0 := key 0 (by omega)
    rw [BitVec.add_zero] at k0
    rw [if_neg (key 3 (by omega)), if_neg (key 2 (by omega)), if_neg (key 1 (by omega)), if_neg k0]

/-- Byte isolation (40_datapath.md R104): a store that fits the space replaces the W bytes at EA by the low W bytes of
its source and no other byte. -/
theorem byteAt_storeMem {m : Memory} (h : Memory.wf m) {ea : Word} {w : Width} (hf : fitsSpace ea w) (v x : Word) :
    (storeMem ea v w m).byteAt x =
      if (x - ea).toNat < w.bytes then wordByte v (x - ea).toNat else m.byteAt x := by
  have hw := w.bytes_pos
  have hoe := offsetOf_lt ea
  have hox := offsetOf_lt x
  have hbe := baseOf_mod ea
  have hbx := baseOf_mod x
  have hlt := x.isLt
  have hlt' := ea.isLt
  have hsub : (x - ea).toNat = (2 ^ 32 - ea.toNat + x.toNat) % 2 ^ 32 := BitVec.toNat_sub x ea
  have hE : ea.toNat = (baseOf ea).toNat + offsetOf ea := by rw [baseOf_toNat, offsetOf_eq_mod]; omega
  have hX : x.toNat = (baseOf x).toNat + offsetOf x := by rw [baseOf_toNat, offsetOf_eq_mod]; omega
  have hf : ea.toNat + w.bytes ≤ 2 ^ 32 := hf
  have hval : ∀ k, k < w.bytes → wordByte (storeValue w v) k = wordByte v k := fun k hk => by
    rw [wordByte_storeValue w v (by omega), if_pos hk]
  unfold storeMem
  cases hs : straddles ea w
  · have hn : offsetOf ea + w.bytes ≤ 4 := by
      have : ¬ 4 < offsetOf ea + w.bytes := by rw [← straddles_iff, hs]; simp
      omega
    simp only [Bool.false_eq_true, if_false]
    rw [byteAt_writeWord_base h, shiftOf_eq, wordByte_mergeStore _ _ hn hox]
    by_cases hb : baseOf x = baseOf ea
    · rw [if_pos hb, byteAt_eq_wordByte m x, hb]
      rw [hb] at hX
      by_cases h1 : offsetOf x < offsetOf ea
      · rw [if_pos h1, if_neg (by omega)]
      · rw [if_neg h1]
        by_cases h2 : offsetOf x < offsetOf ea + w.bytes
        · rw [if_pos h2, if_pos (by omega), hval _ (by omega)]; congr 1; omega
        · rw [if_neg h2, if_neg (by omega)]
    · have hne : (baseOf x).toNat ≠ (baseOf ea).toNat := fun e => hb (BitVec.eq_of_toNat_eq e)
      rw [if_neg hb, if_neg (by omega)]
  · have hn := (straddles_iff ea w).1 hs
    have hlast : baseOf ea ≠ 0xFFFFFFFC#32 := fun e => (straddle_last_iff hs).1 e hf
    have hl : (baseOf ea).toNat ≠ 4294967292 := fun e => hlast (BitVec.eq_of_toNat_eq e)
    have hnext : (baseOf ea + 4#32).toNat = (baseOf ea).toNat + 4 := by
      rw [BitVec.toNat_add]; change ((baseOf ea).toNat + 4) % 2 ^ 32 = _; omega
    have hbn : baseOf (baseOf ea + 4#32) = baseOf ea + 4#32 := by
      apply BitVec.eq_of_toNat_eq; rw [baseOf_toNat]; omega
    simp only [if_true]
    have hstep := byteAt_writeWord_base
      (Memory.wf_writeWord h (baseOf ea) (mergeStoreLow (m.readWord (baseOf ea)) (storeValue w v) (shiftOf ea)))
      (baseOf ea + 4#32)
      (mergeStoreHigh (m.readWord (baseOf ea + 4#32)) (storeValue w v) (highBytes ea w) (shiftOf ea)) x
    rw [hbn] at hstep
    rw [hstep, byteAt_writeWord_base h, shiftOf_eq, highBytes, wordByte_mergeStoreHigh _ _ hoe hn hox,
      wordByte_mergeStoreLow _ _ hox]
    by_cases hb1 : baseOf x = baseOf ea + 4#32
    · rw [if_pos hb1, byteAt_eq_wordByte m x, hb1]
      have := congrArg BitVec.toNat hb1
      by_cases h1 : offsetOf x < offsetOf ea + w.bytes - 4
      · rw [if_pos h1, if_pos (by omega), hval _ (by omega)]; congr 1; omega
      · rw [if_neg h1, if_neg (by omega)]
    · have hne1 : (baseOf x).toNat ≠ (baseOf ea + 4#32).toNat := fun e => hb1 (BitVec.eq_of_toNat_eq e)
      rw [if_neg hb1]
      by_cases hb2 : baseOf x = baseOf ea
      · rw [if_pos hb2, byteAt_eq_wordByte m x, hb2]
        rw [hb2] at hX
        by_cases h1 : offsetOf x < offsetOf ea
        · rw [if_pos h1, if_neg (by omega)]
        · rw [if_neg h1, if_pos (by omega), hval _ (by omega)]; congr 1; omega
      · have hne2 : (baseOf x).toNat ≠ (baseOf ea).toNat := fun e => hb2 (BitVec.eq_of_toNat_eq e)
        rw [if_neg hb2, if_neg (by omega)]

/-- A store keeps memory's canonical form. -/
theorem wf_storeMem {m : Memory} (h : Memory.wf m) (ea v : Word) (w : Width) : Memory.wf (storeMem ea v w m) := by
  unfold storeMem
  split
  · exact Memory.wf_writeWord (Memory.wf_writeWord h _ _) _ _
  · exact Memory.wf_writeWord h _ _

/-! ### What an access puts on the port -/

theorem aligned_base (ea : Word) : aligned (baseOf ea) := baseOf_mod ea

theorem aligned_next (ea : Word) : aligned (baseOf ea + 4#32) := by
  have := baseOf_mod ea
  unfold aligned
  rw [BitVec.toNat_add]; change ((baseOf ea).toNat + 4) % 2 ^ 32 % 4 = 0; omega

theorem loadPort_spec (ea : Word) (w : Width) :
    (loadPort ea w).length ≤ 2 ∧ ∀ t ∈ loadPort ea w, aligned t.addr := by
  unfold loadPort
  split <;> simp [PortTxn.addr, aligned_base, aligned_next]

theorem storePort_spec (ea v : Word) (w : Width) (m : Memory) :
    (storePort ea v w m).length ≤ 4 ∧ (∀ t ∈ storePort ea v w m, aligned t.addr) ∧
      ∀ t ∈ storePort ea v w m, ∃ r ∈ loadPort ea w, r.addr = t.addr := by
  unfold storePort loadPort
  split <;> simp [PortTxn.addr, aligned_base, aligned_next]

end Sys2Proof.Machine
end

