-- ==== Sys2Proof/Laws/Encoding.lean ====
section
/-! SUPPORT. The bits of fields and of encoded words: a field is the named bits, and an encoded word has in each field
of its format what was put there. -/

namespace Sys2Proof

/-! ### Fields -/

theorem getLsbD_extract (w : Word) (lo n j : Nat) :
    (extract w lo n).getLsbD j = (decide (j < 32) && decide (j < n) && w.getLsbD (lo + j)) := by
  rw [extract, BitVec.getLsbD_and, BitVec.getLsbD_ushiftRight, getLsbD_mask, Bool.and_comm]

theorem extract_eq_setWidth (w : Word) (lo n : Nat) :
    extract w lo n = (w.extractLsb' lo n).setWidth 32 := by
  apply BitVec.eq_of_getLsbD_eq; intro j hj
  rw [getLsbD_extract, BitVec.getLsbD_setWidth, BitVec.getLsbD_extractLsb', Bool.and_assoc]

theorem extract_toNat (w : Word) {lo n : Nat} (hn : n ≤ 32) : (extract w lo n).toNat = (w.extractLsb' lo n).toNat := by
  rw [extract_eq_setWidth, BitVec.toNat_setWidth]
  exact Nat.mod_eq_of_lt (Nat.lt_of_lt_of_le (BitVec.isLt _) (Nat.pow_le_pow_right (by omega) hn))

/-- Two fields are the same when their bits are. -/
theorem extract_eq_of_bits {a b : Word} {lo lo' n : Nat} (h : ∀ j, j < n → a.getLsbD (lo + j) = b.getLsbD (lo' + j)) :
    extract a lo n = extract b lo' n := by
  apply BitVec.eq_of_getLsbD_eq; intro j hj
  rw [getLsbD_extract, getLsbD_extract]
  by_cases hn : j < n
  · rw [h j hn]
  · simp [hn]

theorem getLsbD_regWord (r : RegIdx) (j : Nat) : (regWord r).getLsbD j = (decide (j < 32) && r.val.testBit j) := by
  rw [regWord, BitVec.getLsbD_ofNat]

theorem testBit_reg (r : RegIdx) {j : Nat} (h : 5 ≤ j) : r.val.testBit j = false :=
  Nat.testBit_lt_two_pow (Nat.lt_of_lt_of_le (show r.val < 2 ^ 5 from r.isLt) (Nat.pow_le_pow_right (by omega) h))

/-- A register field that holds a register's bits reads as that register. -/
theorem regField_eq {w : Word} {lo : Nat} {r : RegIdx} (h : ∀ j, j < 5 → w.getLsbD (lo + j) = r.val.testBit j) :
    regField w lo = r := by
  have he : extract w lo 5 = regWord r := by
    apply BitVec.eq_of_getLsbD_eq; intro j hj
    rw [getLsbD_extract, getLsbD_regWord]
    by_cases h5 : j < 5
    · simp [hj, h5, h j h5]
    · simp [h5, testBit_reg r (Nat.le_of_not_lt h5)]
  apply Fin.ext
  have := r.isLt
  rw [regField, he, regWord, Fin.val_ofNat, BitVec.toNat_ofNat]; omega

/-! ### Encoded words -/

/-- The bits of a load-style word, field by field (30_encoding.md R61). -/
theorem getLsbD_encI (f3 : Word) (rd rs1 : RegIdx) (imm : Word) {j : Nat} (hj : j < 32) :
    (encI f3 rd rs1 imm).getLsbD j =
      (((((decide (20 ≤ j) && (decide (j - 20 < 12) && imm.getLsbD (j - 20))) ||
        (decide (15 ≤ j) && rs1.val.testBit (j - 15))) || (decide (12 ≤ j) && f3.getLsbD (j - 12))) ||
        (decide (7 ≤ j) && rd.val.testBit (j - 7))) || opcodeLoad.getLsbD j) := by
  have hlt : ∀ a, decide (j - a < 32) = true := fun a => by simp; omega
  have hge : ∀ a, (!decide (j < a)) = decide (a ≤ j) := fun a => by
    by_cases h : a ≤ j
    · simp [h]
    · simp [h]; omega
  simp only [encI, BitVec.getLsbD_or, BitVec.getLsbD_shiftLeft, getLsbD_extract, getLsbD_regWord, hj, decide_true,
    Bool.true_and, Nat.zero_add, hlt, hge]

/-- The bits of a store-style word, field by field (30_encoding.md R62). -/
theorem getLsbD_encS (f3 : Word) (rs1 rs2 : RegIdx) (imm : Word) {j : Nat} (hj : j < 32) :
    (encS f3 rs1 rs2 imm).getLsbD j =
      ((((((decide (25 ≤ j) && (decide (j - 25 < 7) && imm.getLsbD (5 + (j - 25)))) ||
        (decide (20 ≤ j) && rs2.val.testBit (j - 20))) || (decide (15 ≤ j) && rs1.val.testBit (j - 15))) ||
        (decide (12 ≤ j) && f3.getLsbD (j - 12))) ||
        (decide (7 ≤ j) && (decide (j - 7 < 5) && imm.getLsbD (j - 7)))) || opcodeStore.getLsbD j) := by
  have hlt : ∀ a, decide (j - a < 32) = true := fun a => by simp; omega
  have hge : ∀ a, (!decide (j < a)) = decide (a ≤ j) := fun a => by
    by_cases h : a ≤ j
    · simp [h]
    · simp [h]; omega
  simp only [encS, BitVec.getLsbD_or, BitVec.getLsbD_shiftLeft, getLsbD_extract, getLsbD_regWord, hj, decide_true,
    Bool.true_and, Nat.zero_add, hlt, hge]

theorem getLsbD_opcodeLoad {j : Nat} (h : 7 ≤ j) : opcodeLoad.getLsbD j = false := by
  by_cases hj : j < 32
  · interval_cases j <;> rfl
  · exact BitVec.getLsbD_of_ge _ _ (by omega)

theorem getLsbD_opcodeStore {j : Nat} (h : 7 ≤ j) : opcodeStore.getLsbD j = false := by
  by_cases hj : j < 32
  · interval_cases j <;> rfl
  · exact BitVec.getLsbD_of_ge _ _ (by omega)

/-- A load-style word's fields are what was encoded. -/
theorem fields_encI {f3 : Word} (hf : f3.toNat < 8) (rd rs1 : RegIdx) (imm : Word) :
    opcodeOf (encI f3 rd rs1 imm) = opcodeLoad ∧ funct3Of (encI f3 rd rs1 imm) = f3 ∧
      rdOf (encI f3 rd rs1 imm) = rd ∧ rs1Of (encI f3 rd rs1 imm) = rs1 ∧
      extract (encI f3 rd rs1 imm) 20 12 = extract imm 0 12 := by
  have h3 : ∀ j, 3 ≤ j → f3.getLsbD j = false := fun j h =>
    Nat.testBit_lt_two_pow (Nat.lt_of_lt_of_le (show f3.toNat < 2 ^ 3 from hf) (Nat.pow_le_pow_right (by omega) h))
  refine ⟨?_, ?_, ?_, ?_, ?_⟩
  · have : opcodeLoad = extract opcodeLoad 0 7 := by decide
    rw [this]
    refine extract_eq_of_bits fun j hj => ?_
    rw [getLsbD_encI _ _ _ _ (by omega)]
    simp only [Nat.zero_add]
    simp [show ¬ 20 ≤ j by omega, show ¬ 15 ≤ j by omega, show ¬ 12 ≤ j by omega, show ¬ 7 ≤ j by omega]
  · have : f3 = extract f3 0 3 := by
      apply BitVec.eq_of_getLsbD_eq; intro j hj
      rw [getLsbD_extract]
      by_cases h : j < 3
      · simp [hj, h]
      · simp [h, h3 j (by omega)]
    conv_rhs => rw [this]
    refine extract_eq_of_bits fun j hj => ?_
    rw [getLsbD_encI _ _ _ _ (by omega), getLsbD_opcodeLoad (by omega), testBit_reg rd (by omega)]
    simp [show ¬ 20 ≤ 12 + j by omega, show ¬ 15 ≤ 12 + j by omega]
  · refine regField_eq fun j hj => ?_
    rw [getLsbD_encI _ _ _ _ (by omega), getLsbD_opcodeLoad (by omega)]
    simp [show ¬ 20 ≤ 7 + j by omega, show ¬ 15 ≤ 7 + j by omega, show ¬ 12 ≤ 7 + j by omega]
  · refine regField_eq fun j hj => ?_
    rw [getLsbD_encI _ _ _ _ (by omega), getLsbD_opcodeLoad (by omega), testBit_reg rd (by omega), h3 _ (by omega)]
    simp [show ¬ 20 ≤ 15 + j by omega]
  · refine extract_eq_of_bits fun j hj => ?_
    rw [getLsbD_encI _ _ _ _ (by omega), getLsbD_opcodeLoad (by omega), testBit_reg rd (by omega), h3 _ (by omega),
      testBit_reg rs1 (by omega)]
    simp [hj]

/-- A store-style word's fields are what was encoded. -/
theorem fields_encS {f3 : Word} (hf : f3.toNat < 8) (rs1 rs2 : RegIdx) (imm : Word) :
    opcodeOf (encS f3 rs1 rs2 imm) = opcodeStore ∧ funct3Of (encS f3 rs1 rs2 imm) = f3 ∧
      rs1Of (encS f3 rs1 rs2 imm) = rs1 ∧ rs2Of (encS f3 rs1 rs2 imm) = rs2 ∧
      extract (encS f3 rs1 rs2 imm) 25 7 = extract imm 5 7 ∧ extract (encS f3 rs1 rs2 imm) 7 5 = extract imm 0 5 := by
  have h3 : ∀ j, 3 ≤ j → f3.getLsbD j = false := fun j h =>
    Nat.testBit_lt_two_pow (Nat.lt_of_lt_of_le (show f3.toNat < 2 ^ 3 from hf) (Nat.pow_le_pow_right (by omega) h))
  refine ⟨?_, ?_, ?_, ?_, ?_, ?_⟩
  · have : opcodeStore = extract opcodeStore 0 7 := by decide
    rw [this]
    refine extract_eq_of_bits fun j hj => ?_
    rw [getLsbD_encS _ _ _ _ (by omega)]
    simp only [Nat.zero_add]
    simp [show ¬ 25 ≤ j by omega, show ¬ 20 ≤ j by omega, show ¬ 15 ≤ j by omega, show ¬ 12 ≤ j by omega,
      show ¬ 7 ≤ j by omega]
  · have : f3 = extract f3 0 3 := by
      apply BitVec.eq_of_getLsbD_eq; intro j hj
      rw [getLsbD_extract]
      by_cases h : j < 3
      · simp [hj, h]
      · simp [h, h3 j (by omega)]
    conv_rhs => rw [this]
    refine extract_eq_of_bits fun j hj => ?_
    rw [getLsbD_encS _ _ _ _ (by omega), getLsbD_opcodeStore (by omega)]
    simp [show ¬ 25 ≤ 12 + j by omega, show ¬ 20 ≤ 12 + j by omega, show ¬ 15 ≤ 12 + j by omega,
      show ¬ 12 + j - 7 < 5 by omega]
  · refine regField_eq fun j hj => ?_
    rw [getLsbD_encS _ _ _ _ (by omega), getLsbD_opcodeStore (by omega), h3 _ (by omega)]
    simp [show ¬ 25 ≤ 15 + j by omega, show ¬ 20 ≤ 15 + j by omega, show ¬ 15 + j - 7 < 5 by omega]
  · refine regField_eq fun j hj => ?_
    rw [getLsbD_encS _ _ _ _ (by omega), getLsbD_opcodeStore (by omega), h3 _ (by omega), testBit_reg rs1 (by omega)]
    simp [show ¬ 25 ≤ 20 + j by omega, show ¬ 20 + j - 7 < 5 by omega]
  · refine extract_eq_of_bits fun j hj => ?_
    rw [getLsbD_encS _ _ _ _ (by omega), getLsbD_opcodeStore (by omega), h3 _ (by omega), testBit_reg rs1 (by omega),
      testBit_reg rs2 (by omega)]
    simp [hj, show ¬ 25 + j - 7 < 5 by omega]
  · refine extract_eq_of_bits fun j hj => ?_
    rw [getLsbD_encS _ _ _ _ (by omega), getLsbD_opcodeStore (by omega)]
    simp [show ¬ 25 ≤ 7 + j by omega, show ¬ 20 ≤ 7 + j by omega, show ¬ 15 ≤ 7 + j by omega,
      show ¬ 12 ≤ 7 + j by omega, hj]

/-! ### Sign extension -/

/-- The bits of a sign-extended field: its own below, its sign bit from there up (40_datapath.md R86). -/
theorem getLsbD_signExtend (v : Word) {n : Nat} (h1 : 1 ≤ n) (h2 : n ≤ 32) {j : Nat} (hj : j < 32) :
    (signExtend v n).getLsbD j = if j < n then v.getLsbD j else v.getLsbD (n - 1) := by
  have htb : ∀ (x : Word) (i : Nat), i < 32 → testBit x i = x.getLsbD i := by
    intro x i hi
    have hone : ∀ y : Word, y &&& 1#32 = if y.getLsbD 0 then 1#32 else 0#32 := by
      intro y
      apply BitVec.eq_of_getLsbD_eq; intro k hk
      rw [BitVec.getLsbD_and]
      by_cases hk0 : k = 0
      · subst hk0; cases y.getLsbD 0 <;> rfl
      · have : (1#32).getLsbD k = false := by interval_cases k <;> first | contradiction | rfl
        rw [this, Bool.and_false]
        split
        · exact this.symm
        · exact (BitVec.getLsbD_zero ..).symm
    rw [testBit, hone, BitVec.getLsbD_ushiftRight, Nat.add_zero]
    cases x.getLsbD i <;> rfl
  have hf : ∀ k, (v &&& mask n).getLsbD k = (decide (k < n) && v.getLsbD k) := by
    intro k
    rw [BitVec.getLsbD_and, getLsbD_mask]
    by_cases hk : k < 32
    · simp [hk, Bool.and_comm]
    · simp [hk, BitVec.getLsbD_of_ge v k (by omega)]
  unfold signExtend
  by_cases h : n = 32
  · rw [if_pos h, hf, h]; simp [hj]
  · rw [if_neg h, htb _ _ (by omega), hf]
    simp only [show n - 1 < n by omega, decide_true, Bool.true_and]
    cases hs : v.getLsbD (n - 1)
    · simp only [Bool.false_eq_true, if_false]
      rw [hf]
      by_cases hjn : j < n <;> simp [hjn]
    · simp only [if_true]
      rw [BitVec.getLsbD_or, hf, BitVec.getLsbD_not, getLsbD_mask]
      by_cases hjn : j < n <;> simp [hjn, hj]

/-- Sign extension looks at the low bits alone. -/
theorem signExtend_congr {v v' : Word} {n : Nat} (h1 : 1 ≤ n) (h2 : n ≤ 32)
    (h : ∀ j, j < n → v.getLsbD j = v'.getLsbD j) : signExtend v n = signExtend v' n := by
  apply BitVec.eq_of_getLsbD_eq; intro j hj
  rw [getLsbD_signExtend v h1 h2 hj, getLsbD_signExtend v' h1 h2 hj]
  split
  · exact h j ‹_›
  · exact h _ (by omega)

/-! ### Decoded fields, bit by bit -/

theorem testBit_regField (w : Word) (lo : Nat) {j : Nat} (hj : j < 5) :
    (regField w lo).val.testBit j = w.getLsbD (lo + j) := by
  rw [regField, Fin.val_ofNat]
  have h1 : (extract w lo 5).toNat % 32 = (extract w lo 5).toNat := by
    rw [extract_toNat w (by omega)]; exact Nat.mod_eq_of_lt (w.extractLsb' lo 5).isLt
  rw [h1]
  change (extract w lo 5).getLsbD j = _
  rw [getLsbD_extract]; simp [hj]; omega

theorem getLsbD_immI (w : Word) {j : Nat} (hj : j < 12) : (immI w).getLsbD j = w.getLsbD (20 + j) := by
  rw [immI, getLsbD_signExtend _ (by omega) (by omega) (by omega), if_pos hj, getLsbD_extract]; simp [hj]; omega

theorem getLsbD_immS (w : Word) {j : Nat} (hj : j < 12) :
    (immS w).getLsbD j = if j < 5 then w.getLsbD (7 + j) else w.getLsbD (20 + j) := by
  rw [immS, getLsbD_signExtend _ (by omega) (by omega) (by omega), if_pos hj, BitVec.getLsbD_or, extractShift,
    BitVec.getLsbD_shiftLeft, getLsbD_extract, getLsbD_extract]
  by_cases h : j < 5
  · simp [h]; omega
  · simp [h, show j < 32 by omega, show j - 5 < 32 by omega, show j - 5 < 7 by omega,
      show 25 + (j - 5) = 20 + j by omega]

/-- The opcode field as a word equals a 7-bit value exactly when the 7 bits do. -/
theorem opcodeOf_eq_iff (w : Word) (x : BitVec 7) : opcodeOf w = x.setWidth 32 ↔ w.extractLsb' 0 7 = x := by
  unfold opcodeOf
  rw [extract_eq_setWidth]
  constructor
  · intro h
    have := congrArg (BitVec.setWidth 7) h
    simpa using this
  · intro h; rw [h]

theorem funct3Of_lt (w : Word) : (funct3Of w).toNat < 8 := by
  unfold funct3Of
  rw [extract_toNat _ (by omega)]
  exact (BitVec.extractLsb' 12 3 w).isLt

end Sys2Proof
end

