-- ==== Sys2Proof/Laws/PerInstr.lean ====
section
/-! SUPPORT. One statement per instruction: the word of every instruction, well-formed or not, has in the bits a row of
spec/opcode_table.json fixes (mask 0x0000707F: opcode and function-select) that row's match value. -/

namespace Sys2Proof.Laws.TableMatch

/-- The match value of the instruction's row in spec/opcode_table.json. -/
def rowMatch : Instr → Word
  | .lb _ _ _ => 0x00000003#32
  | .lh _ _ _ => 0x00001003#32
  | .lw _ _ _ => 0x00002003#32
  | .lbu _ _ _ => 0x00004003#32
  | .lhu _ _ _ => 0x00005003#32
  | .sb _ _ _ => 0x00000023#32
  | .sh _ _ _ => 0x00001023#32
  | .sw _ _ _ => 0x00002023#32

def Statement (i : Instr) : Prop := encode i &&& 0x0000707F#32 = rowMatch i

/-- The table's mask keeps the opcode and the function-select, in place. -/
theorem masked_eq (w : Word) : w &&& 0x707F#32 = (funct3Of w <<< 12) ||| opcodeOf w := by
  have h : (0x707F#32) = (mask 3 <<< 12) ||| mask 7 := by decide
  rw [h]
  apply BitVec.eq_of_getLsbD_eq
  intro j hj
  simp only [BitVec.getLsbD_and, BitVec.getLsbD_or, BitVec.getLsbD_shiftLeft, getLsbD_mask, funct3Of, opcodeOf,
    getLsbD_extract]
  by_cases h7 : j < 7
  · simp [h7, hj, show j < 12 by omega]
  · by_cases h12 : j < 12
    · simp [h7, h12]
    · simp [h7, h12, hj, show j - 12 < 32 by omega, show 12 + (j - 12) = j by omega, Bool.and_comm]

theorem load {f3 : Word} (hf : f3.toNat < 8) (rd rs1 : RegIdx) (imm : Word) :
    encI f3 rd rs1 imm &&& 0x707F#32 = (f3 <<< 12) ||| opcodeLoad := by
  obtain ⟨ho, h3, -⟩ := fields_encI hf rd rs1 imm
  rw [masked_eq, ho, h3]

theorem store {f3 : Word} (hf : f3.toNat < 8) (rs1 rs2 : RegIdx) (imm : Word) :
    encS f3 rs1 rs2 imm &&& 0x707F#32 = (f3 <<< 12) ||| opcodeStore := by
  obtain ⟨ho, h3, -⟩ := fields_encS hf rs1 rs2 imm
  rw [masked_eq, ho, h3]

theorem lb (rd rs1 : RegIdx) (imm : Word) : Statement (.lb rd rs1 imm) := load (by decide) rd rs1 imm
theorem lh (rd rs1 : RegIdx) (imm : Word) : Statement (.lh rd rs1 imm) := load (by decide) rd rs1 imm
theorem lw (rd rs1 : RegIdx) (imm : Word) : Statement (.lw rd rs1 imm) := load (by decide) rd rs1 imm
theorem lbu (rd rs1 : RegIdx) (imm : Word) : Statement (.lbu rd rs1 imm) := load (by decide) rd rs1 imm
theorem lhu (rd rs1 : RegIdx) (imm : Word) : Statement (.lhu rd rs1 imm) := load (by decide) rd rs1 imm
theorem sb (rs2 rs1 : RegIdx) (imm : Word) : Statement (.sb rs2 rs1 imm) := store (by decide) rs1 rs2 imm
theorem sh (rs2 rs1 : RegIdx) (imm : Word) : Statement (.sh rs2 rs1 imm) := store (by decide) rs1 rs2 imm
theorem sw (rs2 rs1 : RegIdx) (imm : Word) : Statement (.sw rs2 rs1 imm) := store (by decide) rs1 rs2 imm

end Sys2Proof.Laws.TableMatch
end

