-- ==== Sys2Proof/Laws/Pseudocode.lean ====
section
/-! SUPPORT. Each emulator of the machine is the pseudocode's, at the width and extension its function-select names. -/

namespace Sys2Proof.Machine

/-- The pseudocode's test of the path (40_datapath.md R92). -/
theorem single_iff_not_straddles (w : Width) (ea : Word) : (¬ offsetOf ea + w.bytes ≤ 4) ↔ straddles ea w = true := by
  rw [straddles_iff]; omega

theorem emulateLoad_eq_pseudo (w : Width) (signed : Bool) (instr fp : Word) (s : State)
    (hfp : s.request.faultingPc = fp) (h : Pseudo.loadWidth (funct3Of instr) = some (w.bytes, signed)) :
    emulateLoad w signed (rdOf instr) (rs1Of instr) (immI instr) s =
      Pseudo.conclude (Pseudo.emulateLoad instr fp s) := by
  unfold Pseudo.emulateLoad
  have h' : Pseudo.loadWidth (loadDecode instr).funct3 = some (w.bytes, signed) := h
  simp only [h']
  unfold emulateLoad
  simp only [effectiveAddress]
  have e1 : (loadDecode instr).rs1 = rs1Of instr := rfl
  have e2 : (loadDecode instr).imm = immI instr := rfl
  have e3 : (loadDecode instr).rd = rdOf instr := rfl
  rw [e1, e2, e3]
  obtain ⟨ea, hea⟩ : ∃ ea, readReg (rs1Of instr) s + immI instr = ea := ⟨_, rfl⟩
  simp only [hea]
  have b := single_iff_not_straddles w ea
  unfold offsetOf at b
  have fin : ∀ (raw : Word) (u : State), u.request.faultingPc = fp →
      .next (finishLoad w signed (rdOf instr) raw u) =
        Pseudo.conclude (Pseudo.finishLoad (rdOf instr) w.bytes signed fp raw u) := by
    intro raw u hu
    unfold finishLoad Pseudo.finishLoad Pseudo.conclude resumeNext extendLoad truncateTo Width.bits
    simp [hu]
  by_cases hs : straddles ea w = true
  · rw [if_pos hs, if_neg (b.2 hs)]
    unfold secondWord baseOf
    by_cases hb : ea &&& 0xFFFFFFFC#32 = 0xFFFFFFFC#32
    · rw [if_pos hb, if_pos hb]; rfl
    · rw [if_neg hb, if_neg hb]
      simp only [portRead, Pseudo.memRead]
      split
      · split
        · exact fin _ _ hfp
        · rfl
      · rfl
  · rw [if_neg hs, if_pos (by by_contra hx; exact hs (b.1 hx))]
    simp only [portRead, Pseudo.memRead, baseOf]
    by_cases ha : admits s (ea &&& 0xFFFFFFFC#32) = true
    · simp only [ha, if_true]; exact fin _ _ hfp
    · simp only [ha]; rfl

theorem emulateStore_eq_pseudo (w : Width) (instr fp : Word) (s : State) (hfp : s.request.faultingPc = fp)
    (h : (funct3Of instr).toNat ≤ 2) (hw : 1 <<< (funct3Of instr).toNat = w.bytes) :
    emulateStore w (rs2Of instr) (rs1Of instr) (immS instr) s =
      Pseudo.conclude (Pseudo.emulateStore instr fp s) := by
  unfold Pseudo.emulateStore
  have h' : ¬ 2 < (storeDecode instr).funct3.toNat := by show ¬ 2 < (funct3Of instr).toNat; omega
  have hw' : 1 <<< (storeDecode instr).funct3.toNat = w.bytes := hw
  simp only [h', if_false, hw']
  unfold emulateStore
  simp only [effectiveAddress]
  have e1 : (storeDecode instr).rs1 = rs1Of instr := rfl
  have e2 : (storeDecode instr).imm = immS instr := rfl
  have e3 : (storeDecode instr).rs2 = rs2Of instr := rfl
  rw [e1, e2, e3]
  obtain ⟨ea, hea⟩ : ∃ ea, readReg (rs1Of instr) s + immS instr = ea := ⟨_, rfl⟩
  simp only [hea]
  have b := single_iff_not_straddles w ea
  unfold offsetOf at b
  by_cases hs : straddles ea w = true
  · rw [if_pos hs, if_neg (b.2 hs)]
    unfold secondWord baseOf
    by_cases hb : ea &&& 0xFFFFFFFC#32 = 0xFFFFFFFC#32
    · rw [if_pos hb, if_pos hb]; rfl
    · rw [if_neg hb, if_neg hb]
      simp only [portRead, Pseudo.memRead, portWrite, Pseudo.memWrite, admits_logPort, admits_setMem]
      by_cases ha : admits s (ea &&& 0xFFFFFFFC#32) = true <;>
        by_cases hb : admits s ((ea &&& 0xFFFFFFFC#32) + 4#32) = true <;>
        simp only [ha, hb, if_true] <;> first | rfl | (subst hfp; rfl)
  · rw [if_neg hs, if_pos (by by_contra hx; exact hs (b.1 hx))]
    simp only [portRead, Pseudo.memRead, baseOf, portWrite, Pseudo.memWrite, admits_logPort]
    by_cases ha : admits s (ea &&& 0xFFFFFFFC#32) = true <;> simp only [ha, if_true] <;> first | rfl | (subst hfp; rfl)

end Sys2Proof.Machine
end

