-- ==== Sys2Proof/Laws/Steps.lean ====
section
/-! SUPPORT. Everything a meaning, the router and a step can do, said once: each later proof about a next state starts
from one of the `_cases` lemmas here. -/

namespace Sys2Proof.Machine

/-! ### The meanings -/

/-- The state an instruction leaves when it completes. -/
def execDone (i : Instr) (s : State) : State :=
  match i with
  | .lb rd rs1 imm => loadDone .byte true rd (effectiveAddress rs1 imm s) s
  | .lh rd rs1 imm => loadDone .half true rd (effectiveAddress rs1 imm s) s
  | .lw rd rs1 imm => loadDone .word true rd (effectiveAddress rs1 imm s) s
  | .lbu rd rs1 imm => loadDone .byte false rd (effectiveAddress rs1 imm s) s
  | .lhu rd rs1 imm => loadDone .half false rd (effectiveAddress rs1 imm s) s
  | .sb rs2 rs1 imm => storeDone .byte (effectiveAddress rs1 imm s) (readReg rs2 s) s
  | .sh rs2 rs1 imm => storeDone .half (effectiveAddress rs1 imm s) (readReg rs2 s) s
  | .sw rs2 rs1 imm => storeDone .word (effectiveAddress rs1 imm s) (readReg rs2 s) s

/-- A completed load in terms of its destination and the value it writes. -/
theorem execDone_load_or_store (i : Instr) (s : State) :
    (∃ rd v, destOf i = some rd ∧ execDone i s =
      resumeNext (writeReg rd v { s with portLog := s.portLog ++ loadPort (accessOf i s).1 (accessOf i s).2 })) ∨
    (∃ v, destOf i = none ∧ execDone i s = storeDone (accessOf i s).2 (accessOf i s).1 v s) := by
  cases i
  case sb => exact .inr ⟨_, rfl, rfl⟩
  case sh => exact .inr ⟨_, rfl, rfl⟩
  case sw => exact .inr ⟨_, rfl, rfl⟩
  all_goals exact .inl ⟨_, _, rfl, rfl⟩

/-- An instruction whose access fits the space and is admitted completes. -/
theorem exec_admitted {i : Instr} {s : State} (hf : fitsSpace (accessOf i s).1 (accessOf i s).2)
    (ha : ∀ t ∈ loadPort (accessOf i s).1 (accessOf i s).2, admits s t.addr = true) :
    exec i s = .next (execDone i s) := by
  cases i
  case sb => exact emulateStore_admitted _ hf ha
  case sh => exact emulateStore_admitted _ hf ha
  case sw => exact emulateStore_admitted _ hf ha
  all_goals exact emulateLoad_admitted _ _ hf ha

/-- An instruction whose access runs past the address space halts and does nothing else. -/
theorem exec_overflows {i : Instr} {s : State} (hf : ¬ fitsSpace (accessOf i s).1 (accessOf i s).2) :
    exec i s = .next (raiseHalt .addressOverflow s) := by
  cases i
  case sb => exact emulateStore_overflows _ hf
  case sh => exact emulateStore_overflows _ hf
  case sw => exact emulateStore_overflows _ hf
  all_goals exact emulateLoad_overflows _ _ hf

/-- The first port transaction an instruction makes at an address that is not admitted leaves it stuck. -/
theorem exec_stuck {i : Instr} {s : State} (hf : fitsSpace (accessOf i s).1 (accessOf i s).2) :
    (admits s (baseOf (accessOf i s).1) = false → exec i s = .fault (.stuck (baseOf (accessOf i s).1))) ∧
    (admits s (baseOf (accessOf i s).1) = true → straddles (accessOf i s).1 (accessOf i s).2 = true →
      admits s (baseOf (accessOf i s).1 + 4#32) = false →
      exec i s = .fault (.stuck (baseOf (accessOf i s).1 + 4#32))) := by
  cases i
  case sb => exact emulateStore_stuck _ hf
  case sh => exact emulateStore_stuck _ hf
  case sw => exact emulateStore_stuck _ hf
  all_goals exact emulateLoad_stuck _ _ hf

/-- Whether every word of an access is admitted, or which one is the first that is not. -/
theorem loadPort_admitted_or (s : State) (ea : Word) (w : Width) :
    (∀ t ∈ loadPort ea w, admits s t.addr = true) ∨ admits s (baseOf ea) = false ∨
      (admits s (baseOf ea) = true ∧ straddles ea w = true ∧ admits s (baseOf ea + 4#32) = false) := by
  cases hb : admits s (baseOf ea)
  · exact .inr (.inl rfl)
  · unfold loadPort
    cases hs : straddles ea w
    · exact .inl (by simpa [PortTxn.addr] using hb)
    · cases hn : admits s (baseOf ea + 4#32)
      · exact .inr (.inr ⟨rfl, rfl, rfl⟩)
      · exact .inl (by simpa [PortTxn.addr] using ⟨hb, hn⟩)

/-- Everything an instruction can do when it answers a next state. -/
theorem exec_cases {i : Instr} {s t : State} (h : exec i s = .next t) :
    (¬ fitsSpace (accessOf i s).1 (accessOf i s).2 ∧ t = raiseHalt .addressOverflow s) ∨
    (fitsSpace (accessOf i s).1 (accessOf i s).2 ∧
      (∀ x ∈ loadPort (accessOf i s).1 (accessOf i s).2, admits s x.addr = true) ∧ t = execDone i s) := by
  by_cases hf : fitsSpace (accessOf i s).1 (accessOf i s).2
  · rcases loadPort_admitted_or s (accessOf i s).1 (accessOf i s).2 with ha | hb | ⟨hb, hs, hn⟩
    · rw [exec_admitted hf ha] at h
      injection h with h
      exact .inr ⟨hf, ha, h.symm⟩
    · rw [(exec_stuck hf).1 hb] at h; exact nomatch h
    · rw [(exec_stuck hf).2 hb hs hn] at h; exact nomatch h
  · rw [exec_overflows hf] at h
    injection h with h
    exact .inl ⟨hf, h.symm⟩

/-- An instruction answers a next state, or is stuck at an aligned address that is not admitted. -/
theorem exec_next_or_stuck (i : Instr) (s : State) :
    (∃ t, exec i s = .next t) ∨ ∃ a, exec i s = .fault (.stuck a) ∧ admits s a = false ∧ aligned a := by
  by_cases hf : fitsSpace (accessOf i s).1 (accessOf i s).2
  · rcases loadPort_admitted_or s (accessOf i s).1 (accessOf i s).2 with ha | hb | ⟨hb, hs, hn⟩
    · exact .inl ⟨_, exec_admitted hf ha⟩
    · exact .inr ⟨_, (exec_stuck hf).1 hb, hb, aligned_base _⟩
    · exact .inr ⟨_, (exec_stuck hf).2 hb hs hn, hn, aligned_next _⟩
  · exact .inl ⟨_, exec_overflows hf⟩

/-- Everything a completed instruction leaves as it was, and what it adds. -/
theorem execDone_spec (i : Instr) (s : State) :
    (execDone i s).halted = s.halted ∧ (execDone i s).haltReason = s.haltReason ∧
    (execDone i s).response = some (.resume (s.request.faultingPc + 4#32)) ∧
    (execDone i s).holes = s.holes ∧ (execDone i s).irq = s.irq ∧ (execDone i s).inbox = s.inbox ∧
    (∀ j : RegIdx, (execDone i s).rf[j] ≠ s.rf[j] → j ≠ 0 ∧ destOf i = some j) ∧
    (∃ p, (execDone i s).portLog = s.portLog ++ p ∧
      p.length = (if (destOf i).isSome then 1 else 2) *
        (if straddles (accessOf i s).1 (accessOf i s).2 then 2 else 1) ∧
      ∀ x ∈ p, aligned x.addr ∧ ∃ r ∈ loadPort (accessOf i s).1 (accessOf i s).2, r.addr = x.addr) ∧
    (Memory.wf s.mem → Memory.wf (execDone i s).mem) := by
  rcases execDone_load_or_store i s with ⟨rd, v, hd, e⟩ | ⟨v, hd, e⟩ <;> rw [e, hd]
  · refine ⟨rfl, rfl, rfl, rfl, rfl, rfl, ?_, ⟨_, rfl, ?_, ?_⟩, fun h => h⟩
    · intro j hj
      by_cases hjr : j = rd
      · subst hjr
        refine ⟨?_, rfl⟩
        rintro rfl
        exact hj (putReg_slotZero _ _ _)
      · exact absurd (putReg_other hjr _ _) hj
    · unfold loadPort; split <;> simp
    · intro x hx; exact ⟨(loadPort_spec _ _).2 x hx, x, hx, rfl⟩
  · refine ⟨rfl, rfl, rfl, rfl, rfl, rfl, fun j hj => absurd rfl hj, ⟨_, rfl, ?_, ?_⟩, fun h => wf_storeMem h _ _ _⟩
    · unfold storePort; split <;> simp
    · intro x hx; exact ⟨(storePort_spec _ _ _ _).2.1 x hx, (storePort_spec _ _ _ _).2.2 x hx⟩

/-! ### The router -/

/-- Everything the router can do with an exception. -/
theorem exceptionPath_cases (code : Word) (s : State) :
    (∃ r, exceptionPath code s = .next (raiseHalt r s)) ∨
    ∃ i, decode s.request.instr = .ok i ∧ exceptionPath code s = exec i s := by
  unfold exceptionPath
  split
  · exact .inl ⟨_, rfl⟩
  · split
    · exact .inl ⟨_, rfl⟩
    · split
      · exact .inl ⟨_, rfl⟩
      · exact .inr ⟨_, ‹_›, rfl⟩

/-- Everything the router answers to an exception with a next state: a halt with nothing else, or the instruction. -/
theorem handle_exception_cases {s t : State} {code : Word} (hc : s.request.cause = .exception code)
    (h : handle s = .next t) :
    (∃ r, t = raiseHalt r s) ∨
    ∃ i, decode s.request.instr = .ok i ∧ t = execDone i s ∧ fitsSpace (accessOf i s).1 (accessOf i s).2 ∧
      (∀ x ∈ loadPort (accessOf i s).1 (accessOf i s).2, admits s x.addr = true) := by
  simp only [handle, hc] at h
  rcases exceptionPath_cases code s with ⟨r, e⟩ | ⟨i, hi, e⟩
  · rw [e] at h; injection h with h; exact .inl ⟨r, h.symm⟩
  · rw [e] at h
    rcases exec_cases h with ⟨-, rfl⟩ | ⟨a, b, rfl⟩
    · exact .inl ⟨_, rfl⟩
    · exact .inr ⟨i, hi, rfl, a, b⟩

/-- A request that passes the checks is decided by its word. -/
theorem handle_passes {s : State} (h : passesChecks s.request) :
    handle s = match decode s.request.instr with
      | .error r => .next (raiseHalt (rejectReason r) s)
      | .ok i => exec i s := by
  obtain ⟨h1, h2⟩ := h
  have h3 : needsTranslation s.request.snap = false := by
    unfold needsTranslation
    cases hp : s.request.snap.prevPriv <;> cases hx : s.request.snap.xlate <;> simp_all
  obtain ⟨c, hc, he⟩ : ∃ c, s.request.cause = .exception c ∧ emulatedCode c = true := by
    rcases h1 with h | h | h <;> exact ⟨_, h, by decide⟩
  have e : handle s = exceptionPath c s := by simp only [handle, hc]
  rw [e, exceptionPath, he, h3]
  cases decode s.request.instr <;> rfl

/-- A code inside the table takes the first handler registered for it. -/
theorem handlerFor_registered {irq : IrqCapability} {code : Word} {h : Handler} {before after : List (Word × Handler)}
    (hn : code.toNat < irq.nIrq) (ht : irq.table = before ++ (code, h) :: after) (hb : ∀ e ∈ before, e.1 ≠ code) :
    irq.handlerFor code = h := by
  have hf : before.find? (fun e => e.1 == code) = none := by
    rw [List.find?_eq_none]
    intro e he
    simp [hb e he]
  simp [IrqCapability.handlerFor, IrqCapability.lookup, hn, ht, List.find?_append, hf]

/-- A code outside the table, or not registered, takes the default handler. -/
theorem handlerFor_default {irq : IrqCapability} {code : Word}
    (h : irq.nIrq ≤ code.toNat ∨ ∀ e ∈ irq.table, e.1 ≠ code) : irq.handlerFor code = irq.default := by
  unfold IrqCapability.handlerFor IrqCapability.lookup
  split
  · have hf : irq.table.find? (fun e => e.1 == code) = none := by
      rw [List.find?_eq_none]
      intro e he
      simp [h.resolve_left (by omega) e he]
    simp [hf]
  · rfl

/-- What an interrupt leaves of everything but registers, memory and the count of draws. -/
theorem interruptPath_frame (code : Word) (s : State) :
    let t := interruptPath code s
    t.halted = s.halted ∧ t.haltReason = s.haltReason ∧ t.request = s.request ∧
      t.response = some (.resume s.request.faultingPc) ∧ t.holes = s.holes ∧ t.irq = s.irq ∧ t.portLog = s.portLog ∧
      t.inbox = s.inbox := by
  have regs : ∀ (l : List (RegIdx × Word)) (s : State), let t := writeRegs l s
      t.halted = s.halted ∧ t.haltReason = s.haltReason ∧ t.request = s.request ∧ t.holes = s.holes ∧ t.irq = s.irq ∧
        t.portLog = s.portLog ∧ t.inbox = s.inbox := by
    intro l
    induction l with
    | nil => intro s; exact ⟨rfl, rfl, rfl, rfl, rfl, rfl, rfl⟩
    | cons e rest ih => intro s; exact ih (writeReg e.1 e.2 s)
  unfold interruptPath invoke
  split
  · exact ⟨rfl, rfl, rfl, rfl, rfl, rfl, rfl, rfl⟩
  · next l stores _ =>
    obtain ⟨h1, h2, h3, h4, h5, h6, h7⟩ := regs l (setMem (s.mem.putAll stores) s)
    exact ⟨h1, h2, h3, rfl, h4, h5, h6, h7⟩

/-- An interrupt keeps memory's canonical form, whatever the handler stored. -/
theorem interruptPath_wf {code : Word} {s : State} (h : Memory.wf s.mem) : Memory.wf (interruptPath code s).mem := by
  have regs : ∀ (l : List (RegIdx × Word)) (s : State), (writeRegs l s).mem = s.mem := by
    intro l
    induction l with
    | nil => intro s; rfl
    | cons e rest ih => intro s; exact ih _
  unfold interruptPath invoke
  split
  · exact Memory.wf_putAll h _
  · rw [respond_mem, regs]; exact Memory.wf_putAll h _

/-! ### The step -/

/-- Everything a step can do when it answers a next state. -/
theorem step_cases {s t : State} (h : step s = .next t) :
    (s.inbox = [] ∧ s.halted = false ∧ t = s) ∨
    (∃ rest, s.inbox = .reset :: rest ∧ t = applyReset { s with inbox := rest }) ∨
    (∃ stores rest, s.inbox = .programStores stores :: rest ∧ s.halted = false ∧
      t = setMem (s.mem.putAll stores) { s with inbox := rest }) ∨
    (∃ frame req rest, s.inbox = .trap frame req :: rest ∧ s.halted = false ∧
      handle (accept frame req { s with inbox := rest }) = .next t) := by
  unfold step at h
  split at h
  · next hi =>
    unfold waitForInput at h
    split at h
    · exact nomatch h
    · next hh =>
      injection h with h
      exact .inl ⟨hi, by simpa using hh, h.symm⟩
  · next input rest hi =>
    cases input with
    | reset =>
      injection h with h
      exact .inr (.inl ⟨rest, hi, h.symm⟩)
    | programStores stores =>
      simp only [react] at h
      split at h
      · exact nomatch h
      · next hh =>
        injection h with h
        exact .inr (.inr (.inl ⟨stores, rest, hi, by simpa using hh, h.symm⟩))
    | trap frame req =>
      simp only [react] at h
      split at h
      · exact nomatch h
      · next hh => exact .inr (.inr (.inr ⟨frame, req, rest, hi, by simpa using hh, h⟩))

/-- A delivered request is handled with the request taken up. -/
theorem step_trap {s : State} {frame : Option RegFile} {req : Request} {rest : List Input}
    (hi : s.inbox = .trap frame req :: rest) (hh : s.halted = false) :
    step s = handle (accept frame req { s with inbox := rest }) := by
  simp only [step, hi, react, hh, Bool.false_eq_true, if_false]

end Sys2Proof.Machine
end

