-- ==== Sys2Proof/Tests/Slice0.lean ====
section
/-! SUPPORT. The model's own tests. Expected values are those of the spec's worked examples and tables
(95_test_vectors.md, and the examples of 41_loads.md and 42_stores.md), never the model's own answers. Each test is
one step on a small state. The witnesses, one for each statement with hypotheses, follow. -/

namespace Sys2Proof.Tests

open Sys2Proof.Machine

/-! ### Helpers -/

/-- The state a step answers; none where it stops. -/
def after (o : Result) : Option State :=
  match o with
  | .next t => some t
  | .fault _ => none
  | .refused _ => none

/-- The fault a step stops with. -/
def stop (o : Result) : Option Fault :=
  match o with
  | .next _ => none
  | .fault f => some f
  | .refused _ => none

/-- A word's four bytes at an address, lowest first (20_memory.md R43); bytes equal to what an unlisted address reads
as are left out. -/
def bytesOf (a : Nat) (b0 b1 b2 b3 : Byte) : Memory :=
  [(a, b0), (a + 1, b1), (a + 2, b2), (a + 3, b3)].filter fun c => c.2 != Memory.fill

/-- The start of the load table: `Mem[0x100] = 0x54E37281`, `Mem[0x104] = 0x18A736C5`, `x[6] = 0x100`. -/
def loadStart : State :=
  { State.reset with
    rf := (Vector.replicate 32 0#32).set 6 0x100#32
    mem := bytesOf 0x100 0x81#8 0x72#8 0xE3#8 0x54#8 ++ bytesOf 0x104 0xC5#8 0x36#8 0xA7#8 0x18#8 }

/-- The start of the store table: `Mem[0x200] = 0x03020100`, `Mem[0x204] = 0x07060504`, `x[6] = 0x200`,
`x[7] = 0xDEADBEEF`. -/
def storeStart : State :=
  { State.reset with
    rf := ((Vector.replicate 32 0#32).set 6 0x200#32).set 7 0xDEADBEEF#32
    mem := bytesOf 0x200 0x00#8 0x01#8 0x02#8 0x03#8 ++ bytesOf 0x204 0x04#8 0x05#8 0x06#8 0x07#8 }

/-- The top of the address space: `Mem[0xFFFFFFFC] = 0x80FF7F01`, and `x[7] = 0xDEADBEEF`. -/
def topStart : State :=
  { State.reset with
    rf := (Vector.replicate 32 0#32).set 7 0xDEADBEEF#32
    mem := bytesOf 0xFFFFFFFC 0x01#8 0x7F#8 0xFF#8 0x80#8 }

/-- A request at `faulting_pc = 0x1000` from machine mode, bare. -/
def request (cause : TrapCause) (instr : Word) : Request where
  cause := cause
  snap := { prevPriv := .machine, xlate := .bare }
  faultingPc := 0x1000#32
  instr := instr

/-- The state with one request delivered. -/
def deliver (s : State) (q : Request) : State := { s with inbox := [.trap none q] }

/-- One exception request and the step that answers it. -/
def trap (s : State) (code instr : Word) : Option State := after (step (deliver s (request (.exception code) instr)))

/-- What a load leaves: the register, the reads, the response. -/
def loaded (t : Option State) (i : RegIdx) : Option (Word × List PortTxn × Option Response) :=
  t.map fun t => (t.rf[i], t.portLog, t.response)

/-- What a store leaves at two words, and the response. -/
def stored (t : Option State) (a b : Word) : Option (Word × Word × Option Response) :=
  t.map fun t => (t.mem.readWord a, t.mem.readWord b, t.response)

/-- Whether and why the block is halted, and what the halt left of the port. -/
def halted (t : Option State) : Option (Bool × Option HaltReason × List PortTxn) :=
  t.map fun t => (t.halted, t.haltReason, t.portLog)

/-! ### Well-formedness: an ill-formed term for each check -/

theorem test_wf_refuses_a_load_immediate_above_the_range :
    (Instr.lb 5 6 2048#32).wf = false ∧ (Instr.lh 5 6 2048#32).wf = false ∧ (Instr.lw 5 6 2048#32).wf = false ∧
      (Instr.lbu 5 6 2048#32).wf = false ∧ (Instr.lhu 5 6 2048#32).wf = false := by decide

theorem test_wf_refuses_a_load_immediate_below_the_range :
    (Instr.lb 5 6 (-2049#32)).wf = false ∧ (Instr.lh 5 6 (-2049#32)).wf = false ∧ (Instr.lw 5 6 (-2049#32)).wf = false ∧
      (Instr.lbu 5 6 (-2049#32)).wf = false ∧ (Instr.lhu 5 6 (-2049#32)).wf = false := by decide

theorem test_wf_refuses_a_store_immediate_outside_the_range :
    (Instr.sb 5 6 2048#32).wf = false ∧ (Instr.sh 5 6 2048#32).wf = false ∧ (Instr.sw 5 6 2048#32).wf = false ∧
      (Instr.sb 5 6 (-2049#32)).wf = false ∧ (Instr.sh 5 6 (-2049#32)).wf = false ∧
      (Instr.sw 5 6 (-2049#32)).wf = false := by decide

/-! ### Decoding: words written out from R61, R62, R71, R72 (immediate, rs1, funct3, rd, opcode; high immediate, rs2, rs1,
funct3, low immediate, opcode) -/

theorem test_decode_lb : decodeTableWord 32 0b000000000010_00110_000_00101_0000011 = some (.lb 5 6 2#32) := by decide
theorem test_decode_lh : decodeTableWord 32 0b111111111101_00110_001_00101_0000011 = some (.lh 5 6 (-3#32)) := by decide
theorem test_decode_lw : decodeTableWord 32 0b011111111111_11111_010_00001_0000011 = some (.lw 1 31 2047#32) := by decide
theorem test_decode_lbu : decodeTableWord 32 0b100000000000_00001_100_10000_0000011 = some (.lbu 16 1 (-2048#32)) := by decide
theorem test_decode_lhu : decodeTableWord 32 0b000000000011_00110_101_00101_0000011 = some (.lhu 5 6 3#32) := by decide
theorem test_decode_sb : decodeTableWord 32 0b1000000_00111_00110_000_00000_0100011 = some (.sb 7 6 (-2048#32)) := by decide
theorem test_decode_sh : decodeTableWord 32 0b0000000_00111_00110_001_00011_0100011 = some (.sh 7 6 3#32) := by decide
theorem test_decode_sw : decodeTableWord 32 0b1111111_10000_00001_010_11011_0100011 = some (.sw 16 1 (-5#32)) := by decide

/-- Every refused function-select, and opcodes one bit away from LOAD and STORE (R73, R75). -/
theorem test_decode_refuses :
    decodeTableWord 32 0x00133283 = none ∧ decodeTableWord 32 0x00136283 = none ∧ decodeTableWord 32 0x00137283 = none ∧
      decodeTableWord 32 0x007330A3 = none ∧ decodeTableWord 32 0x007340A3 = none ∧ decodeTableWord 32 0x007350A3 = none ∧
      decodeTableWord 32 0x007360A3 = none ∧ decodeTableWord 32 0x007370A3 = none ∧ decodeTableWord 32 0x00132307 = none ∧
      decodeTableWord 32 0x0C62A2AF = none ∧ decodeTableWord 32 0 = none ∧ decodeTableWord 32 0xFFFFFFFF = none := by decide

theorem test_encode_words :
    encode (.lh 5 6 (-3#32)) = 0xFFD31283#32 ∧ encode (.sw 7 6 (-1#32)) = 0xFE732FA3#32 ∧
      encode (.sh 7 6 (-2048#32)) = 0x80731023#32 := by decide

/-- 95_test_vectors.md, field decoders. -/
theorem test_field_decoders :
    immI 0xFFF30283#32 = 0xFFFFFFFF#32 ∧ immS 0xFFF30283#32 = 0xFFFFFFE5#32 ∧ immI 0x80031283#32 = 0xFFFFF800#32 ∧
      immS 0x7E7327A3#32 = 0x7EF#32 ∧ rs2Of 0x7FF31283#32 = 31 ∧ rdOf 0x7E7327A3#32 = 15 ∧
      funct3Of 0xFFFFFFFF#32 = 7#32 ∧ opcodeOf 0xFFFFFFFF#32 = 0b1111111#32 := by decide

/-! ### Primitives (95_test_vectors.md) -/

theorem test_bit_primitives :
    setBit 0#32 31 = 0x80000000#32 ∧ clearBit 0xFFFFFFFF#32 31 = 0x7FFFFFFF#32 ∧ testBit 0x80000000#32 31 = true ∧
      testBit 0x80000000#32 30 = false ∧ mask 0 = 0#32 ∧ mask 12 = 0xFFF#32 ∧ mask 32 = 0xFFFFFFFF#32 := by decide

theorem test_extract_primitives :
    extract 0xDEADBEEF#32 28 4 = 0xD#32 ∧ extract 0xDEADBEEF#32 0 32 = 0xDEADBEEF#32 ∧ extract 0xDEADBEEF#32 4 0 = 0#32 ∧
      extractShift 0x80000F80#32 25 7 5 = 0x800#32 ∧ extractShift 0xFFFFFFFF#32 0 4 28 = 0xF0000000#32 := by decide

theorem test_sign_extension :
    signExtend 0x800#32 12 = 0xFFFFF800#32 ∧ signExtend 0x1FF80#32 8 = 0xFFFFFF80#32 ∧ signExtend 1#32 1 = 0xFFFFFFFF#32 ∧
      signExtend 0x12345678#32 32 = 0x12345678#32 ∧ zext8 0x180#32 = 0x80#32 ∧ sext16 0x18000#32 = 0xFFFF8000#32 := by decide

/-! ### Loads (95_test_vectors.md, load table and corner cases) -/

theorem test_lb_sign_extends :
    loaded (trap loadStart 4#32 0x00230283#32) 5 =
      some (0xFFFFFFE3#32, [.read 0x100#32], some (.resume 0x1004#32)) := by decide

theorem test_lb_at_the_top_never_straddles :
    loaded (trap topStart 4#32 0xFFF00283#32) 5 =
      some (0xFFFFFF80#32, [.read 0xFFFFFFFC#32], some (.resume 0x1004#32)) := by decide

/-- The second load is to register 0: it still reads, and writes nothing. -/
theorem test_lh_straddles_and_discards :
    loaded (trap loadStart 4#32 0x00331283#32) 5 =
      some (0xFFFFC554#32, [.read 0x100#32, .read 0x104#32], some (.resume 0x1004#32)) ∧
    (trap loadStart 4#32 0x00131003#32).map (fun t => (t.rf, t.portLog)) =
      some (loadStart.rf, [.read 0x100#32]) := by decide

theorem test_lh_past_the_top_halts :
    halted (trap topStart 4#32 0xFFF01283#32) = some (true, some .addressOverflow, []) := by decide

theorem test_lw_straddles_at_offset_three :
    loaded (trap loadStart 4#32 0x00332283#32) 5 =
      some (0xA736C554#32, [.read 0x100#32, .read 0x104#32], some (.resume 0x1004#32)) := by decide

theorem test_lw_into_its_base_register :
    loaded (trap loadStart 4#32 0x00132303#32) 6 =
      some (0xC554E372#32, [.read 0x100#32, .read 0x104#32], some (.resume 0x1004#32)) := by decide

theorem test_lbu_zero_extends :
    loaded (trap loadStart 4#32 0x00034283#32) 5 = some (0x81#32, [.read 0x100#32], some (.resume 0x1004#32)) := by decide

theorem test_lhu_zero_extends_a_straddle :
    loaded (trap loadStart 4#32 0x00335283#32) 5 =
      some (0xC554#32, [.read 0x100#32, .read 0x104#32], some (.resume 0x1004#32)) := by decide

/-- The address wraps, and the load goes on: `x[6] = 0xFFFFFFFF`, `Mem[0] = 0x44332211`. -/
theorem test_lhu_address_wraps :
    loaded (trap { loadStart with
        rf := (Vector.replicate 32 0#32).set 6 0xFFFFFFFF#32, mem := bytesOf 0 0x11#8 0x22#8 0x33#8 0x44#8 }
      4#32 0x00235283#32) 5 = some (0x3322#32, [.read 0#32], some (.resume 0x1004#32)) := by decide

/-! ### Stores (95_test_vectors.md, store table and corner cases) -/

theorem test_sb_keeps_the_other_bytes :
    stored (trap storeStart 6#32 0x007301A3#32) 0x200#32 0x204#32 =
      some (0xEF020100#32, 0x07060504#32, some (.resume 0x1004#32)) := by decide

/-- `Mem[0] = 0` here; the table's own row has another word there, untouched. -/
theorem test_sb_at_the_top :
    stored (trap topStart 6#32 0xFE700FA3#32) 0xFFFFFFFC#32 0#32 =
      some (0xEFFF7F01#32, 0#32, some (.resume 0x1004#32)) := by decide

/-- The case of 90_conflicts.md C3: bytes 1 and 2 of the high word stay. -/
theorem test_sh_straddle_keeps_the_high_word :
    stored (trap storeStart 6#32 0x007311A3#32) 0x200#32 0x204#32 =
      some (0xEF020100#32, 0x070605BE#32, some (.resume 0x1004#32)) := by decide

theorem test_sh_past_the_top_halts :
    halted (trap topStart 6#32 0xFE701FA3#32) = some (true, some .addressOverflow, []) := by decide

theorem test_sw_port_order :
    (trap storeStart 6#32 0x00732123#32).map (·.portLog) =
      some [.read 0x200#32, .read 0x204#32, .write 0x200#32 0xBEEF0100#32, .write 0x204#32 0x0706DEAD#32] := by decide

/-- `x[7] = 0x201` is both the address and the data; and `rs2 = x0` stores zero bytes, so that memory drops the bytes
that now read as unlisted ones do. -/
theorem test_sw_of_its_base_register_and_of_zero :
    stored (trap { storeStart with rf := storeStart.rf.set 7 0x201#32 } 6#32 0x00739123#32) 0x200#32 0x204#32 =
      some (0x01020100#32, 0x07060502#32, some (.resume 0x1004#32)) ∧
    (trap storeStart 6#32 0x000320A3#32).map (·.mem) =
      some [(0x205, 0x05#8), (0x206, 0x06#8), (0x207, 0x07#8)] := by decide

/-! ### The router (95_test_vectors.md, router table) -/

theorem test_router_emulated_causes :
    loaded (trap loadStart 6#32 0x00131283#32) 5 = some (0xFFFFE372#32, [.read 0x100#32], some (.resume 0x1004#32)) ∧
      loaded (trap loadStart 0#32 0x00131283#32) 5 =
        some (0xFFFFE372#32, [.read 0x100#32], some (.resume 0x1004#32)) := by decide

theorem test_router_unsupported_causes :
    halted (trap loadStart 2#32 0x00131283#32) = some (true, some .unsupportedCause, []) ∧
      halted (trap loadStart 5#32 0x00131283#32) = some (true, some .unsupportedCause, []) ∧
      halted (trap loadStart 7#32 0x00131283#32) = some (true, some .unsupportedCause, []) := by decide

theorem test_router_invalid_instructions :
    halted (trap loadStart 0#32 0x0080006F#32) = some (true, some .invalidInstruction, []) ∧
      halted (trap loadStart 4#32 0x00133283#32) = some (true, some .invalidInstruction, []) ∧
      halted (trap storeStart 6#32 0x007330A3#32) = some (true, some .invalidInstruction, []) := by decide

theorem test_router_translation :
    halted (after (step (deliver loadStart { request (.exception 6#32) 0x0FF0000F#32 with
      snap := { prevPriv := .lower, xlate := .paged } }))) = some (true, some .translationRequired, []) ∧
    loaded (after (step (deliver loadStart { request (.exception 4#32) 0x00131283#32 with
      snap := { prevPriv := .machine, xlate := .paged } }))) 5 =
        some (0xFFFFE372#32, [.read 0x100#32], some (.resume 0x1004#32)) := by decide

/-- The resume address wraps (92_eei_decisions.md D6). -/
theorem test_resume_address_wraps :
    (after (step (deliver loadStart { request (.exception 4#32) 0x00131283#32 with faultingPc := 0xFFFFFFFC#32 }))).map
      (·.response) = some (some (.resume 0#32)) := by decide

/-- A registered handler that changes nothing, at code 7 of a table of 8, and a default one that writes x[5]. -/
def irqStart : State :=
  { loadStart with
    irq := { nIrq := 8, table := [(7#32, .given [] []), (9#32, .given [] [])], default := .given [(5, 0x55#32)] [] } }

theorem test_interrupt_registered :
    loaded (after (step (deliver irqStart (request (.interrupt 7#32) 0#32)))) 5 =
      some (0#32, [], some (.resume 0x1000#32)) := by decide

/-- An unregistered code, a code outside the table, and a registered one outside the table take the default handler. -/
theorem test_interrupt_default :
    loaded (after (step (deliver irqStart (request (.interrupt 3#32) 0xFFFFFFFF#32)))) 5 =
        some (0x55#32, [], some (.resume 0x1000#32)) ∧
      loaded (after (step (deliver irqStart (request (.interrupt 1000#32) 0x00131283#32)))) 5 =
        some (0x55#32, [], some (.resume 0x1000#32)) ∧
      loaded (after (step (deliver irqStart (request (.interrupt 9#32) 0#32)))) 5 =
        some (0x55#32, [], some (.resume 0x1000#32)) := by decide

/-- An unknown handler: what the spec fixes is the response. -/
theorem test_interrupt_unknown_handler_resumes :
    (after (step (deliver loadStart (request (.interrupt 7#32) 0#32)))).map (fun t => (t.response, t.halted)) =
      some (some (.resume 0x1000#32), false) := by decide

/-! ### Stops, reset and placing a word -/

theorem test_unadmitted_second_word_is_stuck :
    stop (step (deliver { loadStart with holes := [{ first := 0x104#32, last := 0x107#32 }] }
      (request (.exception 4#32) 0x00331283#32))) = some (.stuck 0x104#32) := by decide

theorem test_halted_block_has_no_step :
    stop (step (deliver { loadStart with halted := true } (request (.exception 4#32) 0x00331283#32))) =
      some .halted := by decide

theorem test_reset_input_clears_a_halt :
    halted (after (step { loadStart with
      halted := true, haltReason := some .addressOverflow, inbox := [.reset] })) = some (false, none, []) := by decide

/-- The last of two stores to an address is the one that stays (20_memory.md R52). -/
theorem test_program_stores_in_order :
    (after (step { loadStart with
      inbox := [.programStores [(0x100#32, 1#8), (0x110#32, 3#8), (0x100#32, 2#8)]] })).map
      (fun t => (t.byteAt 0x100#32, t.byteAt 0x101#32, t.byteAt 0x110#32)) = some (2#8, 0x72#8, 3#8) := by decide

/-- A word placed after reset runs as the very first instruction: `lw x5, 1(x0)` reads two words of empty memory. -/
theorem test_placed_word_runs :
    loaded (after (step (State.reset.withFetchWord 32 0x00102283))) 5 =
      some (0#32, [.read 0#32, .read 4#32], some (.resume 4#32)) := by decide

/-! ### Witnesses: concrete states and operands that meet the hypotheses of each statement together -/

open Sys2Proof.Claims

/-- A next state with a property, read off `after`. -/
theorem next_with {o : Result} (p : State → Bool) (h : (after o).any p = true) : ∃ t, o = .next t ∧ p t = true := by
  cases o with
  | next t => exact ⟨t, rfl, h⟩
  | fault _ => exact nomatch h
  | refused _ => exact nomatch h

/-- A next state, read off `after`. -/
theorem next_of {o : Result} (h : (after o).isSome = true) : ∃ t, o = .next t := by
  cases o with
  | next t => exact ⟨t, rfl⟩
  | fault _ => exact nomatch h
  | refused _ => exact nomatch h

/-- The load table's state with `lh x5, 1(x6)` delivered. -/
def lhWaiting : State := deliver loadStart (request (.exception 4#32) 0x00131283#32)

theorem witness_DecodeOfEncodeIsTheInstruction :
    (Instr.lb 0 31 2047#32).wf = true ∧ (Instr.lh 31 0 (-2048#32)).wf = true ∧ (Instr.lw 5 6 0#32).wf = true ∧
      (Instr.lbu 5 6 (-1#32)).wf = true ∧ (Instr.lhu 5 6 2047#32).wf = true ∧ (Instr.sb 0 31 2047#32).wf = true ∧
      (Instr.sh 31 0 (-2048#32)).wf = true ∧ (Instr.sw 5 6 31#32).wf = true := by decide

theorem witness_EncodeOfDecodeIsTheWord :
    decode 0x00131283#32 = .ok (.lh 5 6 1#32) ∧ decode 0xFE732FA3#32 = .ok (.sw 7 6 (-1#32)) := ⟨rfl, rfl⟩

theorem witness_DecodeFollowsTheOpcodeTable :
    0x00230283#32 &&& 0x707F#32 = 0x0003#32 ∧ 0x00131283#32 &&& 0x707F#32 = 0x1003#32 ∧
      0x00332283#32 &&& 0x707F#32 = 0x2003#32 ∧ 0x00034283#32 &&& 0x707F#32 = 0x4003#32 ∧
      0x00335283#32 &&& 0x707F#32 = 0x5003#32 ∧ 0x00730023#32 &&& 0x707F#32 = 0x0023#32 ∧
      0x007311A3#32 &&& 0x707F#32 = 0x1023#32 ∧ 0x00732123#32 &&& 0x707F#32 = 0x2023#32 ∧
      ∀ m ∈ [0x0003#32, 0x1003#32, 0x2003#32, 0x4003#32, 0x5003#32, 0x0023#32, 0x1023#32, 0x2023#32],
        0x00133283#32 &&& 0x707F#32 ≠ m := by
  simp only [List.forall_mem_cons, List.not_mem_nil, false_implies, implies_true, and_true]; decide

theorem witness_SingleBitPrimitives : (0 : Nat) ≤ 31 ∧ (31 : Nat) ≤ 31 := by decide

theorem witness_MaskIsTheLowBits : (0 : Nat) ≤ 32 ∧ (32 : Nat) ≤ 32 := by decide

/-- The whole word in place, and the top bit moved to the top. -/
theorem witness_FieldExtraction :
    (0 ≤ 31 ∧ 32 ≤ 32 - 0 ∧ 0 ≤ 31 ∧ 31 ≤ 31) ∧ (31 ≤ 31 ∧ 1 ≤ 32 - 31 ∧ 31 ≤ 31 ∧ 31 ≤ 31) := by decide

theorem witness_SignExtensionReplicatesTheSignBit : (1 ≤ 1 ∧ 1 ≤ 32) ∧ (1 ≤ 32 ∧ 32 ≤ 32) := by decide

/-- The straddling offsets at their bounds: 3 for a halfword, 1 and 3 for a word. -/
theorem witness_PathSelection :
    straddles 0x103#32 .half = true ∧ straddles 0x101#32 .word = true ∧ straddles 0xFFFFFFFF#32 .word = true := by decide

theorem witness_WordReadAfterWrite :
    Memory.wf loadStart.mem ∧ aligned 0x100#32 ∧ aligned 0xFFFFFFFC#32 ∧ aligned 0#32 := by
  unfold aligned; decide

theorem witness_CanonicalMemoryIsUnique :
    Memory.wf loadStart.mem ∧ Memory.wf [(0x100, 0x81#8), (0x101, 0x72#8), (0x102, 0xE3#8), (0x103, 0x54#8),
        (0x104, 0xC5#8), (0x105, 0x36#8), (0x106, 0xA7#8), (0x107, 0x18#8)] ∧
      ∀ a : Word, loadStart.mem.byteAt a = Memory.byteAt [(0x100, 0x81#8), (0x101, 0x72#8), (0x102, 0xE3#8),
        (0x103, 0x54#8), (0x104, 0xC5#8), (0x105, 0x36#8), (0x106, 0xA7#8), (0x107, 0x18#8)] a :=
  ⟨by decide, by decide, fun _ => rfl⟩

theorem witness_RegisterZeroIsHardWired : (1 : RegIdx) ≠ 0 ∧ (31 : RegIdx) ≠ 0 := by decide

theorem witness_ByteLoadsComplete :
    served loadStart (readReg 6 loadStart + 3#32) .byte ∧ served topStart (readReg 0 topStart + -1#32) .byte := by decide

/-- The last halfword of the space, and a straddling one. -/
theorem witness_HalfwordLoadsComplete :
    (fitsSpace (readReg 0 topStart + -2#32) .half ∧ served topStart (readReg 0 topStart + -2#32) .half) ∧
      fitsSpace (readReg 6 loadStart + 3#32) .half ∧ served loadStart (readReg 6 loadStart + 3#32) .half := by decide

/-- The last word of the space, and a straddling one. -/
theorem witness_WordLoadCompletes :
    (fitsSpace (readReg 0 topStart + -4#32) .word ∧ served topStart (readReg 0 topStart + -4#32) .word) ∧
      fitsSpace (readReg 6 loadStart + 1#32) .word ∧ served loadStart (readReg 6 loadStart + 1#32) .word := by decide

/-- Both clauses where they meet: the last halfword and the first that runs past the space. -/
theorem witness_LoadToRegisterZero :
    (fitsSpace (readReg 0 topStart + -2#32) .half ∧ served topStart (readReg 0 topStart + -2#32) .half) ∧
      ¬ fitsSpace (readReg 0 topStart + -1#32) .half ∧ ¬ fitsSpace (readReg 0 topStart + -3#32) .word := by decide

/-- Every load form completes at a straddling offset, and the wide ones halt at the top. -/
theorem witness_LoadFrame :
    (∀ f ∈ loadForms 5 6 3#32, (after (exec f.1 loadStart)).any (fun t => !t.halted) = true) ∧
      (∀ f ∈ [Instr.lh 5 0 (-1#32), Instr.lhu 5 0 (-1#32), Instr.lw 5 0 (-1#32)],
        (after (exec f topStart)).any (·.halted) = true) := by decide

theorem witness_ByteStoreCompletes :
    Memory.wf topStart.mem ∧ served topStart (readReg 0 topStart + -1#32) .byte := by decide

theorem witness_HalfwordStoreCompletes :
    (Memory.wf topStart.mem ∧ fitsSpace (readReg 0 topStart + -2#32) .half ∧
        served topStart (readReg 0 topStart + -2#32) .half) ∧
      Memory.wf storeStart.mem ∧ fitsSpace (readReg 6 storeStart + 3#32) .half ∧
        served storeStart (readReg 6 storeStart + 3#32) .half := by decide

theorem witness_WordStoreCompletes :
    (Memory.wf topStart.mem ∧ fitsSpace (readReg 0 topStart + -4#32) .word ∧
        served topStart (readReg 0 topStart + -4#32) .word) ∧
      Memory.wf storeStart.mem ∧ fitsSpace (readReg 6 storeStart + 1#32) .word ∧
        served storeStart (readReg 6 storeStart + 1#32) .word := by decide

/-- Every store form completes at a straddling offset, and the wide ones halt at the top. -/
theorem witness_StoreFrame :
    Memory.wf storeStart.mem ∧
      (∀ f ∈ storeForms 7 6 3#32, (after (exec f.1 storeStart)).any (fun t => !t.halted) = true) ∧
      Memory.wf topStart.mem ∧
      (∀ f ∈ [Instr.sh 7 0 (-1#32), Instr.sw 7 0 (-1#32)], (after (exec f topStart)).any (·.halted) = true) := by decide

theorem witness_StoreThenLoadRoundTrip :
    Memory.wf storeStart.mem ∧ (5 : RegIdx) ≠ 0 ∧
      ∀ f ∈ storeForms 7 6 3#32, (after (exec f.1 storeStart)).any (fun t =>
        decide (readReg 6 t + 3#32 = readReg 6 storeStart + 3#32) && !t.halted) = true := by decide

/-- The first address past the top for each straddling width, the last one short of it, and a straddle below the top. -/
theorem witness_SecondWordOverflowHalts :
    2 ^ 32 < (effectiveAddress 0 (-1#32) topStart).toNat + Width.half.bytes ∧
      2 ^ 32 < (effectiveAddress 0 (-3#32) topStart).toNat + Width.word.bytes ∧
      ¬ 2 ^ 32 < (effectiveAddress 0 (-4#32) topStart).toNat + Width.word.bytes ∧
      straddles (effectiveAddress 0 (-5#32) topStart) .word = true ∧
      baseOf (effectiveAddress 0 (-5#32) topStart) ≠ 0xFFFFFFFC#32 := by decide

/-- The load table's state with one aligned word, 0x104 to 0x107, that the environment does not admit. -/
def holedStart : State := { loadStart with holes := [{ first := 0x104#32, last := 0x107#32 }] }

theorem witness_UnadmittedAddressIsStuck :
    (fitsSpace (effectiveAddress 6 4#32 holedStart) .byte ∧
        admits holedStart (baseOf (effectiveAddress 6 4#32 holedStart)) = false) ∧
      fitsSpace (effectiveAddress 6 3#32 holedStart) .half ∧
        admits holedStart (baseOf (effectiveAddress 6 3#32 holedStart)) = true ∧
        straddles (effectiveAddress 6 3#32 holedStart) .half = true ∧
        admits holedStart (baseOf (effectiveAddress 6 3#32 holedStart) + 4#32) = false := by decide

theorem witness_StepRunsTheDecodedInstruction :
    delivers lhWaiting none (request (.exception 4#32) 0x00131283#32) [] ∧
      passesChecks (request (.exception 4#32) 0x00131283#32) ∧ decode 0x00131283#32 = .ok (.lh 5 6 1#32) :=
  ⟨by decide, by decide, rfl⟩

theorem witness_PlacedWordRunsNext : decode 0x00102283#32 = .ok (.lw 5 0 1#32) := rfl

theorem witness_StepRefinesThePseudocode :
    delivers lhWaiting none (request (.exception 4#32) 0x00131283#32) [] := by decide

/-- An unsupported code beside each emulated one, and each emulated one with a next state. -/
theorem witness_UnsupportedCauseHalts :
    (∀ code ∈ [1#32, 3#32, 5#32, 7#32, 0xFFFFFFFF#32],
        delivers (deliver loadStart (request (.exception code) 0#32)) none (request (.exception code) 0#32) [] ∧
          code ≠ 0#32 ∧ code ≠ 4#32 ∧ code ≠ 6#32) ∧
      loadStart.haltReason = none ∧
      ∀ code ∈ [0#32, 4#32, 6#32],
        (after (step (deliver loadStart (request (.exception code) 0x00131283#32)))).isSome = true := by
  simp only [List.forall_mem_cons, List.not_mem_nil, false_implies, implies_true, and_true]; decide

/-- The four rows of the truth table, the three that go on with a next state. -/
theorem witness_TranslationCheck :
    loadStart.haltReason = none ∧
      delivers (deliver loadStart { request (.exception 4#32) 0x00131283#32 with
        snap := { prevPriv := .lower, xlate := .paged } }) none
        { request (.exception 4#32) 0x00131283#32 with snap := { prevPriv := .lower, xlate := .paged } } [] ∧
      ∀ snap ∈ [PrivilegeSnapshot.mk .machine .bare, PrivilegeSnapshot.mk .machine .paged,
          PrivilegeSnapshot.mk .lower .bare],
        snap ≠ { prevPriv := .lower, xlate := .paged } ∧
          (after (step (deliver loadStart { request (.exception 4#32) 0x00131283#32 with snap := snap }))).isSome =
            true := by decide

theorem witness_InvalidInstructionHalts :
    ∀ w ∈ [0x0080006F#32, 0x00133283#32, 0x00136283#32, 0x00137283#32, 0x007330A3#32, 0x007370A3#32],
      delivers (deliver loadStart (request (.exception 4#32) w)) none (request (.exception 4#32) w) [] ∧
        passesChecks (request (.exception 4#32) w) ∧ refusedWord w := by
  simp only [List.forall_mem_cons, List.not_mem_nil, false_implies, implies_true, and_true, refusedWord, opcodeBits,
    funct3Bits]
  refine ⟨?_, ?_, ?_, ?_, ?_, ?_⟩ <;> decide

/-- A next state by each check in turn, and by none. -/
theorem witness_ChecksInOrder :
    loadStart.haltReason = none ∧
      ∀ q ∈ [request (.exception 2#32) 0x00131283#32,
          { request (.exception 4#32) 0x00131283#32 with snap := { prevPriv := .lower, xlate := .paged } },
          request (.exception 4#32) 0x00133283#32, request (.exception 4#32) 0xFFF02283#32,
          request (.exception 4#32) 0x00131283#32],
        delivers (deliver loadStart q) none q [] ∧ (after (step (deliver loadStart q))).isSome = true := by decide

theorem witness_CauseAndModeAreNotCrossChecked :
    delivers lhWaiting none (request (.exception 4#32) 0x00131283#32) [] ∧
      passesChecks (request (.exception 4#32) 0x00131283#32) ∧
      passesChecks { request (.exception 6#32) 0x00131283#32 with snap := { prevPriv := .lower, xlate := .bare } } ∧
      (after (step lhWaiting)).isSome = true := by decide

theorem witness_InterruptResumesAtTheTrappedPc :
    delivers (deliver irqStart (request (.interrupt 7#32) 0#32)) none (request (.interrupt 7#32) 0#32) [] ∧
      Memory.wf irqStart.mem := by decide

/-- The last code inside the table, registered; the first outside it; and one inside it that is not registered. -/
theorem witness_InterruptInvokesTheTableEntry :
    selects irqStart.irq 7#32 (.given [] []) ∧ selects irqStart.irq 8#32 (.given [(5, 0x55#32)] []) ∧
      selects irqStart.irq 3#32 (.given [(5, 0x55#32)] []) ∧
      ∀ code ∈ [7#32, 8#32, 3#32],
        delivers (deliver irqStart (request (.interrupt code) 0#32)) none (request (.interrupt code) 0#32) [] := by
  refine ⟨.inl ⟨by decide, [], [(9#32, .given [] [])], rfl, nofun⟩, .inr ⟨.inl (by decide), rfl⟩,
    .inr ⟨.inr (by decide), rfl⟩, ?_⟩
  simp only [List.forall_mem_cons, List.not_mem_nil, false_implies, implies_true, and_true]; decide

/-- The same table with unknown handlers: one at the last code inside it, and the default one. -/
def unknownStart : State :=
  { loadStart with irq := { nIrq := 8, table := [(7#32, .unknown 1)], default := .unknown 0 } }

/-- A registered unknown handler, and the default one outside the table and for a code that is not registered. -/
theorem witness_UnknownHandlerIsHavoc :
    selects unknownStart.irq 7#32 (.unknown 1) ∧ selects unknownStart.irq 8#32 (.unknown 0) ∧
      selects unknownStart.irq 3#32 (.unknown 0) ∧ Memory.wf unknownStart.mem ∧
      ∀ code ∈ [7#32, 8#32, 3#32],
        delivers (deliver unknownStart (request (.interrupt code) 0#32)) none (request (.interrupt code) 0#32) [] := by
  refine ⟨.inl ⟨by decide, [], [], rfl, nofun⟩, .inr ⟨.inl (by decide), rfl⟩, .inr ⟨.inr (by decide), rfl⟩,
    by decide, ?_⟩
  simp only [List.forall_mem_cons, List.not_mem_nil, false_implies, implies_true, and_true]; decide

/-- An emulation, an interrupt, a halt and a stuck transaction. -/
theorem witness_ResumeAtTheNextPcOrHalt :
    delivers lhWaiting none (request (.exception 4#32) 0x00131283#32) [] ∧
      delivers (deliver irqStart (request (.interrupt 7#32) 0#32)) none (request (.interrupt 7#32) 0#32) [] ∧
      delivers (deliver loadStart (request (.exception 2#32) 0#32)) none (request (.exception 2#32) 0#32) [] ∧
      delivers (deliver holedStart (request (.exception 4#32) 0x00331283#32)) none
        (request (.exception 4#32) 0x00331283#32) [] := by decide

/-- A load that writes x[5], and an interrupt whose handler writes nothing. -/
theorem witness_AtMostOneRegisterWrite :
    delivers lhWaiting none (request (.exception 4#32) 0x00131283#32) [] ∧
      (after (step lhWaiting)).any (fun t => t.rf[5] != loadStart.rf[5]) = true ∧
      delivers (deliver irqStart (request (.interrupt 7#32) 0#32)) none (request (.interrupt 7#32) 0#32) [] ∧
      irqStart.irq.handlerFor 7#32 = .given [] [] ∧
      (after (step (deliver irqStart (request (.interrupt 7#32) 0#32)))).isSome = true := by decide

theorem witness_HaltHasNoSideEffect :
    delivers (deliver topStart (request (.exception 6#32) 0xFE702F23#32)) none
        (request (.exception 6#32) 0xFE702F23#32) [] ∧
      ∃ t, step (deliver topStart (request (.exception 6#32) 0xFE702F23#32)) = .next t ∧ t.halted = true :=
  ⟨by decide, next_with _ (by decide)⟩

/-- A halt, and a completed access of each count: 1, 2, 2 and 4. -/
theorem witness_PortTransactionCounts :
    (∃ t, step (deliver topStart (request (.exception 4#32) 0xFFF02283#32)) = .next t ∧ t.halted = true) ∧
      ∀ w ∈ [0x00131283#32, 0x00331283#32, 0x00731023#32, 0x007311A3#32],
        ∃ t, step (deliver loadStart (request (.exception 4#32) w)) = .next t ∧ (!t.halted) = true := by
  refine ⟨next_with _ (by decide), fun w hw => next_with _ ?_⟩
  revert w; simp only [List.forall_mem_cons, List.not_mem_nil, false_implies, implies_true, and_true]; decide

theorem witness_HaltIsStickyUntilReset :
    ({ lhWaiting with halted := true }.halted = true ∧ ∀ rest, { lhWaiting with halted := true }.inbox ≠ .reset :: rest) ∧
      (∃ t, step { loadStart with halted := true, inbox := [.reset] } = .next t) ∧
      loadStart.halted = false ∧
      ∃ t, step (deliver loadStart (request (.exception 2#32) 0#32)) = .next t ∧ t.halted = true :=
  ⟨⟨rfl, fun _ h => nomatch h⟩, next_of (by decide), rfl, next_with _ (by decide)⟩

theorem witness_ResetInputClearsTheHalt :
    { loadStart with halted := true, inbox := [.reset] }.inbox = .reset :: [] := rfl

theorem witness_IdleBlockWaits : loadStart.inbox = [] ∧ loadStart.halted = false := by decide

/-- Two stores to the last address of the space, with one elsewhere between them. -/
def threeStores : List (Word × Byte) := [(0xFFFFFFFF#32, 1#8), (0#32, 3#8), (0xFFFFFFFF#32, 2#8)]

/-- A stored address with no later store to it, an address no store names, and no store at all. -/
theorem witness_ProgramStoresReachMemory :
    Memory.wf loadStart.mem ∧ loadStart.halted = false ∧
      { loadStart with inbox := [.programStores threeStores] }.inbox = .programStores threeStores :: [] ∧
      threeStores = [(0xFFFFFFFF#32, 1#8), (0#32, 3#8)] ++ (0xFFFFFFFF#32, 2#8) :: [] ∧
      (∀ e ∈ threeStores, e.1 ≠ 0x100#32) ∧
      { loadStart with inbox := [.programStores []] }.inbox = .programStores [] :: [] := by
  refine ⟨by decide, rfl, rfl, rfl, ?_, rfl⟩
  simp [threeStores]

theorem witness_StepKeepsTheInvariant : Inv lhWaiting ∧ ∃ t, step lhWaiting = .next t :=
  ⟨⟨by decide, rfl, by decide, nofun, nofun, by decide, nofun⟩, next_of (by decide)⟩

theorem witness_NoHiddenState :
    delivers lhWaiting none (request (.exception 4#32) 0x00131283#32) [] := by decide

theorem witness_FreshFrameReplacesRegisters :
    delivers { loadStart with inbox := [.trap (some storeStart.rf) (request (.exception 4#32) 0x00131283#32)] }
      (some storeStart.rf) (request (.exception 4#32) 0x00131283#32) [] := by decide

theorem witness_ParametersNeverChange : ∃ t, step lhWaiting = .next t := next_of (by decide)

/-- The launch premises a claim about the trapped program may take hold together of a state, and the step ends well. -/
theorem witness_launch_premises :
    frameZero lhWaiting ∧ served lhWaiting (readReg 6 lhWaiting + 1#32) .half ∧
      (after (step lhWaiting)).any (fun t => !t.halted && t.response == some (.resume 0x1004#32)) = true := by decide

end Sys2Proof.Tests
end

section
/-! The environment's parameters: no transaction and no step changes which addresses are admitted or the interrupt
capability. -/

namespace Sys2Proof.Machine

/-- The router leaves the environment's parameters as they are, on the interrupt path and on the exception path. -/
theorem handle_parameters {s t : State} (h : handle s = .next t) : t.holes = s.holes ∧ t.irq = s.irq := by
  cases hc : s.request.cause with
  | interrupt code =>
    simp only [handle, hc] at h
    injection h with h
    subst h
    obtain ⟨-, -, -, -, hholes, hirq, -, -⟩ := interruptPath_frame code s
    exact ⟨hholes, hirq⟩
  | exception code =>
    rcases handle_exception_cases hc h with ⟨r, rfl⟩ | ⟨i, -, rfl, -, -⟩
    · exact ⟨raiseHalt_holes r s, raiseHalt_irq r s⟩
    · obtain ⟨-, -, -, hholes, hirq, -⟩ := execDone_spec i s
      exact ⟨hholes, hirq⟩

/-- Settles O51: waiting, the reset input and the program's own stores touch neither parameter, and a delivered request
is handled by the router, which keeps both. -/
theorem parametersNeverChange : Obligations.ParametersNeverChange := by
  intro s t h
  rcases step_cases h with ⟨-, -, rfl⟩ | ⟨rest, -, rfl⟩ | ⟨stores, rest, -, -, rfl⟩ | ⟨frame, req, rest, -, -, h⟩
  · exact ⟨rfl, rfl⟩
  · exact ⟨applyReset_holes _, applyReset_irq _⟩
  · exact ⟨setMem_holes _ _, setMem_irq _ _⟩
  · have hk := handle_parameters h
    rwa [accept_holes, accept_irq] at hk

end Sys2Proof.Machine
end

section
/-! Registers: the router writes no slot but the destination of a completed load (10_state.md R22, R23). -/

namespace Sys2Proof.Machine

/-- Reading a slot after a register write. -/
theorem putReg_slot (rf : RegFile) (i j : RegIdx) (v : Word) :
    (putReg rf i v)[j] = if j = i ∧ i ≠ 0 then v else rf[j] := by
  by_cases hj : j = i
  · subst hj
    by_cases h0 : j = 0
    · subst h0; simp
    · simp [h0, putReg_same h0]
  · simp [hj, putReg_other hj]

@[simp] theorem writeReg_zero (v : Word) (s : State) : writeReg 0 v s = s := by
  simp [writeReg]

theorem writeReg_of_ne {i : RegIdx} (h : i ≠ 0) (v : Word) (s : State) :
    writeReg i v s = { s with rf := s.rf.set i v } := by
  simp [writeReg, putReg, h]

/-- Reading a register after a register write. -/
theorem readReg_writeReg (i j : RegIdx) (v : Word) (s : State) :
    readReg j (writeReg i v s) = if j = i ∧ i ≠ 0 then v else readReg j s := by
  by_cases h0 : j = 0
  · subst h0
    have hi : ¬((0 : RegIdx) = i ∧ i ≠ 0) := fun ⟨h, hne⟩ => hne h.symm
    rw [if_neg hi, readReg_zero, readReg_zero]
  · rw [readReg_of_ne h0, readReg_of_ne h0, writeReg_rf, putReg_slot]

/-- Settles O15: each clause is the law of one register operation. -/
theorem registerZeroIsHardWired : Obligations.RegisterZeroIsHardWired := fun s i v =>
  ⟨readReg_zero s, fun h => readReg_of_ne h s, writeReg_zero v s, fun h => writeReg_of_ne h v s,
    fun j => readReg_writeReg i j v s⟩

/-- An exception changes no register slot but the destination of an instruction that completes, never slot 0; a halt
leaves every register as it was. -/
theorem handle_exception_slot {s t : State} {code : Word} (h : handle s = .next t)
    (hc : s.request.cause = .exception code) (hh : s.halted = false) {j : RegIdx} (hj : t.rf[j] ≠ s.rf[j]) :
    j ≠ 0 ∧ t.halted = false ∧ ∃ i, decode s.request.instr = .ok i ∧ destOf i = some j := by
  rcases handle_exception_cases hc h with ⟨r, rfl⟩ | ⟨i, hi, rfl, -, -⟩
  · exact absurd rfl hj
  · obtain ⟨hhalted, -, -, -, -, -, hslot, -, -⟩ := execDone_spec i s
    obtain ⟨h0, hd⟩ := hslot j hj
    exact ⟨h0, hhalted.trans hh, i, hi, hd⟩

theorem handle_interrupt {s : State} {code : Word} (hc : s.request.cause = .interrupt code) :
    handle s = .next (interruptPath code s) := by
  simp only [handle, hc]

/-- An interrupt whose handler writes no register changes none: the router itself writes none. -/
theorem interruptPath_rf_of_no_writes {s : State} {code : Word} {stores : List (Word × Byte)}
    (h : s.irq.handlerFor code = .given [] stores) : (interruptPath code s).rf = s.rf := by
  rw [interruptPath, h]; rfl

/-- Settles O39: the slots after a write by `putReg_slot`; a delivered request is handled on the lent frame, where the
exception path and the interrupt path keep the rule. -/
theorem atMostOneRegisterWrite : Obligations.AtMostOneRegisterWrite := by
  refine ⟨fun s i j v => putReg_slot s.rf i j v, ?_⟩
  rintro s t frame req rest ⟨hi, hh⟩ hstep
  rw [step_trap hi hh] at hstep
  constructor
  · intro code hc j hj
    exact handle_exception_slot hstep hc hh hj
  · intro code stores hc hhandler
    rw [handle_interrupt hc] at hstep
    injection hstep with hstep
    subst hstep
    exact interruptPath_rf_of_no_writes hhandler

end Sys2Proof.Machine
end

section
/-! What a step answers to each action of the environment, when it stops, and what halts the block
(10_state.md R31; 60_exceptions.md R151, R161; 70_reset_and_hazards.md R180, R181, R188). -/

namespace Sys2Proof.Machine

theorem step_idle {s : State} (hi : s.inbox = []) (hh : s.halted = false) : step s = .next s := by
  simp [step, hi, waitForInput, hh]

theorem step_reset {s : State} {rest : List Input} (hi : s.inbox = .reset :: rest) :
    step s = .next (applyReset { s with inbox := rest }) := by
  simp only [step, hi, react]

theorem step_programStores {s : State} {stores : List (Word × Byte)} {rest : List Input}
    (hi : s.inbox = .programStores stores :: rest) (hh : s.halted = false) :
    step s = .next (setMem (s.mem.putAll stores) { s with inbox := rest }) := by
  simp [step, hi, react, hh]

/-- A halted block has no step unless the reset input is next. -/
theorem step_halted {s : State} (hh : s.halted = true) (hr : ∀ rest, s.inbox ≠ .reset :: rest) :
    step s = .fault .halted := by
  cases hi : s.inbox with
  | nil => simp [step, hi, waitForInput, hh]
  | cons input rest =>
    cases input with
    | reset => exact absurd hi (hr rest)
    | trap frame req => simp [step, hi, react, hh]
    | programStores stores => simp [step, hi, react, hh]

/-- The router answers a next state, or is stuck at an aligned address that is not admitted. -/
theorem handle_next_or_stuck (s : State) :
    (∃ t, handle s = .next t) ∨ ∃ a, handle s = .fault (.stuck a) ∧ admits s a = false ∧ aligned a := by
  cases hc : s.request.cause with
  | interrupt code => exact .inl ⟨_, handle_interrupt hc⟩
  | exception code =>
    have he : handle s = exceptionPath code s := by simp only [handle, hc]
    rw [he]
    rcases exceptionPath_cases code s with ⟨r, e⟩ | ⟨i, -, e⟩
    · exact .inl ⟨raiseHalt r s, e⟩
    · rw [e]; exact exec_next_or_stuck i s

/-- Settles O52: a halted block steps by reset alone; a running one steps on every action but a request, and the router
answers a request or is stuck. -/
theorem onlyHaltedOrStuckStops : Obligations.OnlyHaltedOrStuckStops := by
  intro s
  cases hh : s.halted with
  | true =>
    by_cases hr : ∃ rest, s.inbox = .reset :: rest
    · obtain ⟨rest, hi⟩ := hr
      exact .inl ⟨_, step_reset hi⟩
    · exact .inr (.inl ⟨step_halted hh (not_exists.mp hr), rfl⟩)
  | false =>
    cases hi : s.inbox with
    | nil => exact .inl ⟨s, step_idle hi hh⟩
    | cons input rest =>
      cases input with
      | reset => exact .inl ⟨_, step_reset hi⟩
      | programStores stores => exact .inl ⟨_, step_programStores hi hh⟩
      | trap frame req =>
        rw [step_trap hi hh]
        rcases handle_next_or_stuck (accept frame req { s with inbox := rest }) with hnext | ⟨a, hstuck, ha, hal⟩
        · exact .inl hnext
        · exact .inr (.inr ⟨a, hstuck, rfl, ha, hal⟩)

/-- What halts the block in a transaction is recorded. -/
theorem handle_halt_has_reason {s t : State} (h : handle s = .next t) (hh : s.halted = false)
    (ht : t.halted = true) : ∃ reason, t.haltReason = some reason := by
  cases hc : s.request.cause with
  | interrupt code =>
    rw [handle_interrupt hc] at h
    injection h with h
    subst h
    obtain ⟨hkept, -⟩ := interruptPath_frame code s
    simp [hkept, hh] at ht
  | exception code =>
    rcases handle_exception_cases hc h with ⟨r, rfl⟩ | ⟨i, -, rfl, -, -⟩
    · exact ⟨r, raiseHalt_haltReason r s⟩
    · obtain ⟨hkept, -⟩ := execDone_spec i s
      simp [hkept, hh] at ht

/-- Settles O42: a halted block has no step but the one the reset input makes, and of a running block's steps only a
transaction can halt it. -/
theorem haltIsStickyUntilReset : Obligations.HaltIsStickyUntilReset := by
  refine fun s => ⟨step_halted, fun t hh h => ?_, fun t hh h ht => ?_⟩
  · by_contra hr
    rw [step_halted hh (not_exists.mp hr)] at h
    exact nomatch h
  · rcases step_cases h with ⟨-, -, rfl⟩ | ⟨rest, -, rfl⟩ | ⟨stores, rest, -, -, rfl⟩ | ⟨frame, req, rest, -, -, h⟩
    · simp [hh] at ht
    · simp at ht
    · simp [hh] at ht
    · exact handle_halt_has_reason h hh ht

/-- Settles O44: the reset state is written out, and it has no action of the environment to meet. -/
theorem resetStateIsIdle : Obligations.ResetStateIsIdle :=
  ⟨rfl, rfl, rfl, step_idle rfl rfl⟩

/-- Settles O48: memory lists nothing, nothing is halted and nothing was put on the port. -/
theorem resetMeetsTheInvariant : Obligations.ResetMeetsTheInvariant where
  memCanonical := by decide
  reasonIffHalted := rfl
  responseIffHalted := ⟨nofun, nofun⟩
  portAligned := nofun
  portAdmitted := nofun
  portBounded := by decide
  haltIsSilent := nofun

end Sys2Proof.Machine
end

section
/-! What of the state before a delivered request its step can depend on (10_state.md R36, R37). -/

namespace Sys2Proof.Machine

/-- Two states in which a request is delivered step alike when taking it up makes them the same. -/
theorem step_congr_of_accept_eq {s s' : State} {frame : Option RegFile} {req : Request} {rest : List Input}
    (hs : delivers s frame req rest) (hs' : delivers s' frame req rest)
    (h : accept frame req { s with inbox := rest } = accept frame req { s' with inbox := rest }) :
    step s = step s' := by
  rw [step_trap hs.1 hs.2, step_trap hs'.1 hs'.2, h]

/-- Settles O49: taking up a request replaces the request, the response and the port record of the one before. -/
theorem noHiddenState : Obligations.NoHiddenState := fun _ frame req _ rest _ _ hs =>
  step_congr_of_accept_eq (frame := frame) (req := req) (rest := rest) hs hs rfl

/-- Settles O50: taking up a request with a frame of its own replaces the registers. -/
theorem freshFrameReplacesRegisters : Obligations.FreshFrameReplacesRegisters := fun _ frame _ req rest hs =>
  step_congr_of_accept_eq (frame := some frame) (req := req) (rest := rest) hs hs rfl

end Sys2Proof.Machine
end

section
/-! The invariant along a step: each action of the environment, and each ending of a transaction, keeps it
(20_memory.md R42, R46; 60_exceptions.md R160, R161). -/

namespace Sys2Proof.Machine

/-- A fail-stop in a transaction that has put nothing on the port meets the invariant. -/
theorem inv_raiseHalt {s : State} (hm : Memory.wf s.mem) (hp : s.portLog = []) (r : HaltReason) :
    Inv (raiseHalt r s) where
  memCanonical := hm
  reasonIffHalted := rfl
  responseIffHalted := ⟨fun _ => rfl, fun _ => rfl⟩
  portAligned := by simp [hp]
  portAdmitted := by simp [hp]
  portBounded := by simp [hp]
  haltIsSilent := fun _ => hp

/-- A completed instruction meets the invariant when its transaction began with an empty port and the words of its access
are admitted: everything it puts on the port goes to one of those words. -/
theorem inv_execDone {i : Instr} {s : State} (hm : Memory.wf s.mem) (hh : s.halted = false)
    (hr : s.haltReason = none) (hp : s.portLog = [])
    (ha : ∀ x ∈ loadPort (accessOf i s).1 (accessOf i s).2, admits s x.addr = true) : Inv (execDone i s) := by
  obtain ⟨hhalted, hreason, hresponse, hholes, -, -, -, ⟨p, hlog, hlen, htxn⟩, hwf⟩ := execDone_spec i s
  rw [hp, List.nil_append] at hlog
  constructor
  case memCanonical => exact hwf hm
  case reasonIffHalted => rw [hreason, hhalted, hr, hh]; rfl
  case responseIffHalted => simp [hresponse, hhalted, hh]
  case portAligned => rw [hlog]; exact fun x hx => (htxn x hx).1
  case portAdmitted =>
    rw [hlog]
    intro x hx
    obtain ⟨r, hload, haddr⟩ := (htxn x hx).2
    rw [admits_congr hholes, ← haddr]
    exact ha r hload
  case portBounded =>
    rw [hlog, hlen]
    split <;> split <;> decide
  case haltIsSilent => simp [hhalted, hh]

/-- An interrupt taken by a running block with an empty port meets the invariant. -/
theorem inv_interruptPath {s : State} (hm : Memory.wf s.mem) (hh : s.halted = false) (hr : s.haltReason = none)
    (hp : s.portLog = []) (code : Word) : Inv (interruptPath code s) := by
  obtain ⟨hhalted, hreason, -, hresponse, -, -, hlog, -⟩ := interruptPath_frame code s
  rw [hp] at hlog
  constructor
  case memCanonical => exact interruptPath_wf hm
  case reasonIffHalted => rw [hreason, hhalted, hr, hh]; rfl
  case responseIffHalted => simp [hresponse, hhalted, hh]
  case haltIsSilent => exact fun _ => hlog
  all_goals simp [hlog]

/-- Every answer of the router to a request a running block has just taken up meets the invariant. -/
theorem inv_handle {s t : State} (hm : Memory.wf s.mem) (hh : s.halted = false) (hr : s.haltReason = none)
    (hp : s.portLog = []) (h : handle s = .next t) : Inv t := by
  cases hc : s.request.cause with
  | interrupt code =>
    rw [handle_interrupt hc] at h
    injection h with h
    subst h
    exact inv_interruptPath hm hh hr hp code
  | exception code =>
    rcases handle_exception_cases hc h with ⟨r, rfl⟩ | ⟨i, -, rfl, -, ha⟩
    · exact inv_raiseHalt hm hp r
    · exact inv_execDone hm hh hr hp ha

/-- The reset input makes every block with canonical memory meet the invariant. -/
theorem inv_applyReset {s : State} (hm : Memory.wf s.mem) : Inv (applyReset s) where
  memCanonical := hm
  reasonIffHalted := rfl
  responseIffHalted := ⟨nofun, nofun⟩
  portAligned := nofun
  portAdmitted := nofun
  portBounded := Nat.zero_le 4
  haltIsSilent := nofun

/-- The invariant says nothing of the inbox, and of memory only that it is canonical. -/
theorem Inv.setMem_inbox {s : State} (h : Inv s) {m : Memory} (hm : Memory.wf m) (rest : List Input) :
    Inv (setMem m { s with inbox := rest }) where
  memCanonical := hm
  reasonIffHalted := h.reasonIffHalted
  responseIffHalted := h.responseIffHalted
  portAligned := h.portAligned
  portAdmitted := h.portAdmitted
  portBounded := h.portBounded
  haltIsSilent := h.haltIsSilent

theorem Inv.haltReason_none {s : State} (h : Inv s) (hh : s.halted = false) : s.haltReason = none := by
  have hr := h.reasonIffHalted
  rwa [hh, Option.isSome_eq_false_iff, Option.isNone_iff_eq_none] at hr

/-- Settles O47: waiting changes nothing, the reset input empties the port, the program's own stores keep memory
canonical, and a request is taken up by a running block with the port empty, where the router keeps the invariant. -/
theorem stepKeepsTheInvariant : Obligations.StepKeepsTheInvariant := by
  intro s t hs h
  rcases step_cases h with ⟨-, -, rfl⟩ | ⟨rest, -, rfl⟩ | ⟨stores, rest, -, -, rfl⟩ | ⟨frame, req, rest, -, hh, h⟩
  · exact hs
  · exact inv_applyReset hs.memCanonical
  · exact hs.setMem_inbox (Memory.wf_putAll hs.memCanonical stores) rest
  · exact inv_handle (s := accept frame req { s with inbox := rest }) hs.memCanonical hh (hs.haltReason_none hh) rfl h

end Sys2Proof.Machine
end

section
/-! Memory as its reader sees it: the aligned word that holds a byte, words after a word write, and canonical memories
as the bytes they list (20_memory.md R40, R41, R43). -/

namespace Sys2Proof.Machine

/-- Settles O12: a byte is the byte of the word at its base, and its offset there is the address mod 4. -/
theorem littleEndianWords : Obligations.LittleEndianWords := by
  intro s a
  have h := byteAt_eq_wordByte s.mem a
  rwa [offsetOf_eq_mod] at h

theorem baseOf_of_aligned {a : Word} (h : aligned a) : baseOf a = a := by
  unfold aligned at h
  apply BitVec.eq_of_toNat_eq
  rw [baseOf_toNat, h, Nat.sub_zero]

/-- The four bytes of an aligned word lie in that word. -/
theorem baseOf_add_of_aligned {a : Word} (h : aligned a) {k : Nat} (hk : k < 4) :
    baseOf (a + BitVec.ofNat 32 k) = a := by
  unfold aligned at h
  apply BitVec.eq_of_toNat_eq
  have ha := a.isLt
  rw [baseOf_toNat, BitVec.toNat_add, BitVec.toNat_ofNat]
  omega

/-- Two memories with the same four bytes from an address up have the same word there. -/
theorem readWord_congr {m n : Memory} {a : Word}
    (h : ∀ k, k < 4 → m.byteAt (a + BitVec.ofNat 32 k) = n.byteAt (a + BitVec.ofNat 32 k)) :
    m.readWord a = n.readWord a := by
  have h0 := h 0 (by decide)
  rw [BitVec.add_zero] at h0
  rw [Memory.readWord, Memory.readWord, h0, h 1 (by decide), h 2 (by decide), h 3 (by decide)]

/-- A write of one aligned word leaves every other aligned word alone. -/
theorem readWord_writeWord_other {m : Memory} (hm : Memory.wf m) {a b : Word} (ha : aligned a) (hb : aligned b)
    (h : b ≠ a) (v : Word) : (m.writeWord a v).readWord b = m.readWord b := by
  refine readWord_congr fun k hk => ?_
  have hbyte := byteAt_writeWord_base hm a v (b + BitVec.ofNat 32 k)
  rwa [baseOf_of_aligned ha, baseOf_add_of_aligned hb hk, if_neg h] at hbyte

/-- Settles O13: the word written is read back, and another aligned word shares no byte with it. -/
theorem wordReadAfterWrite : Obligations.WordReadAfterWrite := by
  intro m a b v hm ha hb
  refine ⟨Memory.wf_writeWord hm a v, ?_⟩
  split
  · next h => rw [h, Memory.readWord_writeWord_same hm]
  · next h => exact readWord_writeWord_other hm ha hb h v

/-- A byte that differs from what an unlisted address reads as is listed. -/
theorem mem_of_get_ne_fill {m : Memory} {a : Nat} (h : m.get a ≠ Memory.fill) : (a, m.get a) ∈ m := by
  induction m with
  | nil => exact absurd rfl h
  | cons c rest ih =>
    rw [Memory.get] at h ⊢
    by_cases hc : c.1 = a
    · rw [if_pos hc, ← hc]
      exact List.mem_cons_self
    · rw [if_neg hc] at h ⊢
      exact List.mem_cons_of_mem c (ih h)

/-- In canonical form a listed byte is the one read at its address. -/
theorem get_of_mem {m : Memory} (hm : Memory.wf m) {c : Host.Cell} (hc : c ∈ m) : m.get c.1 = c.2 := by
  induction m with
  | nil => exact nomatch hc
  | cons d rest ih =>
    rw [Memory.get]
    rcases List.mem_cons.1 hc with rfl | hc
    · exact if_pos rfl
    · rw [if_neg (Nat.ne_of_lt (Memory.wf_head hm c hc)), ih (Memory.wf_tail hm) hc]

/-- A canonical memory that reads at every address as another one does lists every byte of it. -/
theorem subset_of_byteAt_eq {m n : Memory} (hm : Memory.wf m) (h : ∀ a : Word, m.byteAt a = n.byteAt a) : m ⊆ n := by
  intro c hc
  obtain ⟨hlt, hne⟩ := hm.2 c hc
  have hn : n.get c.1 = c.2 := by
    have ha := h (BitVec.ofNat 32 c.1)
    rw [Memory.byteAt, Memory.byteAt, BitVec.toNat_ofNat, Nat.mod_eq_of_lt hlt, get_of_mem hm hc] at ha
    exact ha.symm
  rw [← hn] at hne
  have hmem := mem_of_get_ne_fill hne
  rwa [hn] at hmem

/-- Settles O14: each memory lists every byte of the other, and the order of the list is that of the addresses. -/
theorem canonicalMemoryIsUnique : Obligations.CanonicalMemoryIsUnique := by
  intro m n hm hn h
  have hperm : m.Perm n :=
    (List.perm_ext_iff_of_nodup (hm.1.imp fun hlt e => by simp [e] at hlt)
      (hn.1.imp fun hlt e => by simp [e] at hlt)).2
      fun c => ⟨fun hc => subset_of_byteAt_eq hm h hc, fun hc => subset_of_byteAt_eq hn (fun a => (h a).symm) hc⟩
  exact hperm.eq_of_pairwise (fun c d _ _ hcd hdc => absurd hcd (Nat.lt_asymm hdc)) hm.1 hn.1

end Sys2Proof.Machine
end

section
/-! The memory port seen from a whole request: where an access is stuck and how many transactions it makes
(20_memory.md R46, R50; 70_reset_and_hazards.md R189). -/

namespace Sys2Proof.Machine

/-- The access of each of the eight forms: the effective address of its operands, and the width it is listed with. -/
theorem accessOf_accessForms {r rs1 : RegIdx} {imm : Word} {f : Instr × Width} (hf : f ∈ Claims.accessForms r rs1 imm)
    (s : State) : accessOf f.1 s = (effectiveAddress rs1 imm s, f.2) := by
  revert f
  simp [Claims.accessForms, Claims.loadForms, Claims.storeForms, accessOf, effectiveAddress]

/-- Settles O27: what `exec_stuck` says of an instruction's access, which for each form is the named one. -/
theorem unadmittedAddressIsStuck : Obligations.UnadmittedAddressIsStuck := by
  intro r rs1 imm s f hf ea hfits
  have hstuck := exec_stuck (i := f.1) (s := s)
  rw [accessOf_accessForms hf s] at hstuck
  exact hstuck hfits

/-- Settles O41: a halt leaves the empty port of the request just taken up, and a completed instruction adds to it the
transactions `execDone_spec` counts. -/
theorem portTransactionCounts : Obligations.PortTransactionCounts := by
  rintro s t frame req rest code ⟨hi, hh⟩ hc h
  rw [step_trap hi hh] at h
  rcases handle_exception_cases hc h with ⟨r, rfl⟩ | ⟨i, hdecode, rfl, -, -⟩
  · exact ⟨fun _ => rfl, nofun⟩
  · obtain ⟨hhalted, -, -, -, -, -, -, ⟨p, hlog, hlen, -⟩, -⟩ :=
      execDone_spec i (accept frame req { s with inbox := rest })
    rw [accept_portLog, List.nil_append] at hlog
    refine ⟨fun ht => ?_, fun _ => ⟨i, hdecode, ?_⟩⟩
    · exact absurd (hhalted.symm.trans ht) (by simp [hh])
    · rw [hlog]; exact hlen

end Sys2Proof.Machine
end

section
/-! The trapped program's own stores (20_memory.md R52). -/

namespace Sys2Proof.Machine

/-- A list of byte stores reaches memory in order: the last store to an address is what is read there. -/
theorem storedInOrder_putAll {m : Memory} (hm : Memory.wf m) (stores : List (Word × Byte)) :
    Claims.storedInOrder m stores (m.putAll stores) := by
  refine fun x => ⟨fun earlier b later he hlater => ?_, Memory.byteAt_putAll_other hm stores⟩
  have hearlier := Memory.wf_putAll hm earlier
  calc (m.putAll stores).byteAt x
      = (((m.putAll earlier).putByte x b).putAll later).byteAt x := by rw [he, Memory.putAll_append]; rfl
    _ = ((m.putAll earlier).putByte x b).byteAt x :=
        Memory.byteAt_putAll_other (Memory.wf_putByte hearlier x b) later hlater
    _ = b := by rw [Memory.byteAt_putByte hearlier, if_pos rfl]

/-- Settles O46: the step replaces memory by what the stores make of it, in order. -/
theorem programStoresReachMemory : Obligations.ProgramStoresReachMemory := fun s stores _ hm hi hh =>
  ⟨s.mem.putAll stores, step_programStores hi hh, Memory.wf_putAll hm stores, storedInOrder_putAll hm stores⟩

end Sys2Proof.Machine
end

section
/-! The fields of a word: registers and immediates as the named bits, the 12-bit range, and words told apart by their
fields (30_encoding.md R63 to R67). -/

namespace Sys2Proof

/-! ### Fields as named bits -/

theorem regField_eq_toFin (w : Word) (lo : Nat) : regField w lo = (w.extractLsb' lo 5).toFin := by
  apply Fin.ext
  rw [regField, Fin.val_ofNat, extract_toNat w (by omega)]
  exact Nat.mod_eq_of_lt (w.extractLsb' lo 5).isLt

/-- Sign extension is that of the low bits as a value of their own width (40_datapath.md R86). -/
theorem signExtend_eq_signExtend_setWidth (v : Word) {n : Nat} (h1 : 1 ≤ n) (h2 : n ≤ 32) :
    signExtend v n = (v.setWidth n).signExtend 32 := by
  apply BitVec.eq_of_getLsbD_eq
  intro j hj
  rw [getLsbD_signExtend v h1 h2 hj, BitVec.getLsbD_signExtend, BitVec.msb_eq_getLsbD_last]
  by_cases h : j < n
  · simp [h, hj]
  · simp [h, hj, BitVec.getLsbD_setWidth]; omega

theorem immI_eq (w : Word) : immI w = (w.extractLsb' 20 12).signExtend 32 := by
  rw [immI, signExtend_eq_signExtend_setWidth _ (by omega) (by omega), extract_eq_setWidth]
  simp

/-- The bits of a store's two immediate parts joined: the high part stands above the five bits of the low one. -/
theorem getLsbD_joined (a b : Word) (lo lo' : Nat) {j : Nat} (hj : j < 12) :
    (extractShift a lo 7 5 ||| extract b lo' 5).getLsbD j =
      if j < 5 then b.getLsbD (lo' + j) else a.getLsbD (lo + (j - 5)) := by
  rw [BitVec.getLsbD_or, extractShift, BitVec.getLsbD_shiftLeft, getLsbD_extract, getLsbD_extract]
  by_cases h : j < 5
  · simp [h]; omega
  · simp [h, show j < 32 by omega, show j - 5 < 32 by omega, show j - 5 < 7 by omega]

/-- The store's immediate is its two parts joined (R67). -/
theorem immS_eq (w : Word) : immS w = (w.extractLsb' 25 7 ++ w.extractLsb' 7 5).signExtend 32 := by
  rw [immS, signExtend_eq_signExtend_setWidth _ (by omega) (by omega)]
  congr 1
  apply BitVec.eq_of_getLsbD_eq
  intro j hj
  rw [BitVec.getLsbD_setWidth, getLsbD_joined _ _ _ _ hj, BitVec.getLsbD_append, BitVec.getLsbD_extractLsb',
    BitVec.getLsbD_extractLsb']
  by_cases h : j < 5
  · simp [h, hj]
  · simp [h, hj, show j - 5 < 7 by omega]

/-! ### The immediate's range -/

/-- What is sign-extended from 12 bits lies in -2048..+2047. -/
theorem toInt_signExtend_range (x : BitVec 12) :
    -2048 ≤ (x.signExtend 32).toInt ∧ (x.signExtend 32).toInt ≤ 2047 := by
  rw [BitVec.toInt_signExtend_of_le (by omega)]
  have hlow := BitVec.le_toInt x
  have hhigh := BitVec.toInt_lt (x := x)
  omega

/-- A word in the 12-bit range is its low 12 bits, sign-extended. -/
theorem signExtend_of_immInRange {imm : Word} (h : immInRange imm = true) : signExtend imm 12 = imm := by
  obtain ⟨hlow, hhigh⟩ : -2048 ≤ imm.toInt ∧ imm.toInt ≤ 2047 := by simpa [immInRange] using h
  rw [signExtend_eq_signExtend_setWidth _ (by omega) (by omega)]
  apply BitVec.eq_of_toInt_eq
  rw [BitVec.toInt_signExtend_of_le (by omega), BitVec.toInt_setWidth]
  calc (imm.toNat : Int).bmod (2 ^ 12)
      = imm.toInt.bmod (2 ^ 12) := by
        rw [BitVec.toInt_eq_toNat_bmod, Int.bmod_bmod_of_dvd (Nat.pow_dvd_pow 2 (by omega))]
    _ = imm.toInt := Int.bmod_eq_of_le (by omega) (by omega)

theorem immInRange_signExtend (x : BitVec 12) : immInRange (x.signExtend 32) = true := by
  simpa [immInRange] using toInt_signExtend_range x

/-- Settles O3: each field by the lemma that names its bits, the ranges by sign extension from 12 bits. -/
theorem fieldDecodersReadTheNamedBits : Obligations.FieldDecodersReadTheNamedBits := by
  intro w
  obtain ⟨hIlow, hIhigh⟩ := toInt_signExtend_range (w.extractLsb' 20 12)
  obtain ⟨hSlow, hShigh⟩ := toInt_signExtend_range (w.extractLsb' 25 7 ++ w.extractLsb' 7 5)
  rw [← immI_eq] at hIlow hIhigh
  rw [← immS_eq] at hSlow hShigh
  exact ⟨extract_eq_setWidth w 0 7, extract_eq_setWidth w 12 3, regField_eq_toFin w 15, regField_eq_toFin w 7,
    regField_eq_toFin w 20, immI_eq w, immS_eq w, hIlow, hIhigh, hSlow, hShigh⟩

/-! ### Words told apart by their fields -/

theorem getLsbD_eq_of_extract_eq {a b : Word} {lo n : Nat} (h : extract a lo n = extract b lo n) {j : Nat}
    (hj : j < n) : a.getLsbD (lo + j) = b.getLsbD (lo + j) := by
  by_cases h32 : j < 32
  · have hbit : (extract a lo n).getLsbD j = (extract b lo n).getLsbD j := by rw [h]
    rw [getLsbD_extract, getLsbD_extract] at hbit
    simpa only [h32, hj, decide_true, Bool.true_and] using hbit
  · rw [BitVec.getLsbD_of_ge a _ (by omega), BitVec.getLsbD_of_ge b _ (by omega)]

/-- Words that agree on two adjacent fields agree on the field they make up. -/
theorem extract_eq_append {a b : Word} {lo n m : Nat} (hlow : extract a lo n = extract b lo n)
    (hhigh : extract a (lo + n) m = extract b (lo + n) m) : extract a lo (n + m) = extract b lo (n + m) := by
  refine extract_eq_of_bits fun j hj => ?_
  by_cases h : j < n
  · exact getLsbD_eq_of_extract_eq hlow h
  · have hbit := getLsbD_eq_of_extract_eq hhigh (j := j - n) (by omega)
    rwa [show lo + n + (j - n) = lo + j by omega] at hbit

theorem eq_of_extract_eq {a b : Word} (h : extract a 0 32 = extract b 0 32) : a = b := by
  apply BitVec.eq_of_getLsbD_eq
  intro j hj
  simpa using getLsbD_eq_of_extract_eq h hj

/-- Words with the same register in a field have the same bits there. -/
theorem extract_eq_of_regField_eq {a b : Word} {lo : Nat} (h : regField a lo = regField b lo) :
    extract a lo 5 = extract b lo 5 :=
  extract_eq_of_bits fun j hj => by rw [← testBit_regField a lo hj, h, testBit_regField b lo hj]

/-- The fields of the load format (R61) make up the word. -/
theorem eq_of_load_fields {a b : Word} (hop : opcodeOf a = opcodeOf b) (hrd : rdOf a = rdOf b)
    (hf3 : funct3Of a = funct3Of b) (hrs1 : rs1Of a = rs1Of b) (himm : extract a 20 12 = extract b 20 12) : a = b :=
  eq_of_extract_eq <| extract_eq_append (n := 20) (m := 12)
    (extract_eq_append (n := 15) (m := 5)
      (extract_eq_append (n := 12) (m := 3)
        (extract_eq_append (n := 7) (m := 5) hop (extract_eq_of_regField_eq hrd)) hf3)
      (extract_eq_of_regField_eq hrs1)) himm

/-- The fields of the store format (R62) make up the word. -/
theorem eq_of_store_fields {a b : Word} (hop : opcodeOf a = opcodeOf b) (hlow : extract a 7 5 = extract b 7 5)
    (hf3 : funct3Of a = funct3Of b) (hrs1 : rs1Of a = rs1Of b) (hrs2 : rs2Of a = rs2Of b)
    (hhigh : extract a 25 7 = extract b 25 7) : a = b :=
  eq_of_load_fields hop (by rw [rdOf, rdOf, regField, regField, hlow]) hf3 hrs1 <|
    extract_eq_append (n := 5) (m := 7) (extract_eq_of_regField_eq hrs2) hhigh

end Sys2Proof
end

section
/-! Decoder and encoder: what the decoder does in each format, that the encoder is its inverse, and the opcode table
(30_encoding.md R61, R62, R70 to R73, R77). -/

namespace Sys2Proof

/-! ### The two formats of the decoder -/

theorem decode_of_load {w : Word} (h : opcodeOf w = opcodeLoad) : decode w = loadInstr (loadDecode w) := by
  rw [decode, if_pos h]

theorem decode_of_store {w : Word} (h : opcodeOf w = opcodeStore) : decode w = storeInstr (storeDecode w) := by
  have hload : opcodeOf w ≠ opcodeLoad := by rw [h]; decide
  rw [decode, if_neg hload, if_pos h]

/-- What decodes is a load by the load table or a store by the store table. -/
theorem decode_cases {w : Word} {i : Instr} (h : decode w = .ok i) :
    (opcodeOf w = opcodeLoad ∧ loadInstr (loadDecode w) = .ok i) ∨
    (opcodeOf w = opcodeStore ∧ storeInstr (storeDecode w) = .ok i) := by
  by_cases hload : opcodeOf w = opcodeLoad
  · exact .inl ⟨hload, (decode_of_load hload).symm.trans h⟩
  · by_cases hstore : opcodeOf w = opcodeStore
    · exact .inr ⟨hstore, (decode_of_store hstore).symm.trans h⟩
    · rw [decode, if_neg hload, if_neg hstore] at h
      cases h

/-! ### Decoding what was encoded -/

/-- A load-style word reads back as the immediate put into it (R66). -/
theorem immI_encI {f3 imm : Word} (hf : f3.toNat < 8) (rd rs1 : RegIdx) (hi : immInRange imm = true) :
    immI (encI f3 rd rs1 imm) = imm := by
  obtain ⟨-, -, -, -, himm⟩ := fields_encI hf rd rs1 imm
  calc immI (encI f3 rd rs1 imm)
      = signExtend (extract imm 0 12) 12 := by rw [immI, himm]
    _ = signExtend imm 12 := signExtend_congr (by omega) (by omega) fun j hj => by
        rw [getLsbD_extract]; simp [hj]; omega
    _ = imm := signExtend_of_immInRange hi

/-- A store-style word reads back as the immediate put into its two parts (R67). -/
theorem immS_encS {f3 imm : Word} (hf : f3.toNat < 8) (rs1 rs2 : RegIdx) (hi : immInRange imm = true) :
    immS (encS f3 rs1 rs2 imm) = imm := by
  obtain ⟨-, -, -, -, hhigh, hlow⟩ := fields_encS hf rs1 rs2 imm
  calc immS (encS f3 rs1 rs2 imm)
      = signExtend (extractShift imm 5 7 5 ||| extract imm 0 5) 12 := by
        rw [immS, extractShift, hhigh, hlow, extractShift]
    _ = signExtend imm 12 := signExtend_congr (by omega) (by omega) fun j hj => by
        rw [getLsbD_joined _ _ _ _ hj, Nat.zero_add]
        split
        · rfl
        · rw [Nat.add_sub_cancel' (by omega)]
    _ = imm := signExtend_of_immInRange hi

theorem decode_encI {f3 imm : Word} {rd rs1 : RegIdx} (hf : f3.toNat < 8) (hi : immInRange imm = true) :
    decode (encI f3 rd rs1 imm) = loadInstr ⟨opcodeLoad, rd, f3, rs1, imm⟩ := by
  obtain ⟨hop, hf3, hrd, hrs1, -⟩ := fields_encI hf rd rs1 imm
  rw [decode_of_load hop, loadDecode, hop, hf3, hrd, hrs1, immI_encI hf rd rs1 hi]

theorem decode_encS {f3 imm : Word} {rs1 rs2 : RegIdx} (hf : f3.toNat < 8) (hi : immInRange imm = true) :
    decode (encS f3 rs1 rs2 imm) = storeInstr ⟨opcodeStore, f3, rs1, rs2, imm⟩ := by
  obtain ⟨hop, hf3, hrs1, hrs2, -, -⟩ := fields_encS hf rs1 rs2 imm
  rw [decode_of_store hop, storeDecode, hop, hf3, hrs1, hrs2, immS_encS hf rs1 rs2 hi]

/-- Settles O1: every field of an encoded word reads back (`decode_encI`, `decode_encS`), and the function-select of
each row names its instruction. -/
theorem decodeOfEncodeIsTheInstruction : Obligations.DecodeOfEncodeIsTheInstruction := by
  intro i hwf
  cases i with
  | lb | lh | lw | lbu | lhu => exact decode_encI (by decide) hwf
  | sb | sh | sw => exact decode_encS (by decide) hwf

/-! ### Encoding what was decoded -/

theorem eq_ofNat_of_toNat_eq {v : Word} {n : Nat} (h : v.toNat = n) : v = BitVec.ofNat 32 n := by
  rw [← h, BitVec.ofNat_toNat, BitVec.setWidth_eq]

/-- The load of a row is encoded with that row's function-select and the operands decoded. -/
theorem encode_of_loadInstr {d : DecodedLoad} {i : Instr} (h : loadInstr d = .ok i) :
    encode i = encI d.funct3 d.rd d.rs1 d.imm ∧ i.wf = immInRange d.imm := by
  unfold loadInstr at h
  split at h
  case h_6 => cases h
  all_goals
    next hf3 =>
      cases h
      rw [eq_ofNat_of_toNat_eq hf3]
      exact ⟨rfl, rfl⟩

/-- The store of a row is encoded with that row's function-select and the operands decoded. -/
theorem encode_of_storeInstr {d : DecodedStore} {i : Instr} (h : storeInstr d = .ok i) :
    encode i = encS d.funct3 d.rs1 d.rs2 d.imm ∧ i.wf = immInRange d.imm := by
  unfold storeInstr at h
  split at h
  case h_4 => cases h
  all_goals
    next hf3 =>
      cases h
      rw [eq_ofNat_of_toNat_eq hf3]
      exact ⟨rfl, rfl⟩

/-- A load word is the encoding of its own fields. -/
theorem encI_loadDecode {w : Word} (h : opcodeOf w = opcodeLoad) :
    encI (funct3Of w) (rdOf w) (rs1Of w) (immI w) = w := by
  obtain ⟨hop, hf3, hrd, hrs1, himm⟩ := fields_encI (funct3Of_lt w) (rdOf w) (rs1Of w) (immI w)
  refine eq_of_load_fields (hop.trans h.symm) hrd hf3 hrs1 (himm.trans ?_)
  exact extract_eq_of_bits fun j hj => by rw [Nat.zero_add, getLsbD_immI w hj]

/-- A store word is the encoding of its own fields. -/
theorem encS_storeDecode {w : Word} (h : opcodeOf w = opcodeStore) :
    encS (funct3Of w) (rs1Of w) (rs2Of w) (immS w) = w := by
  obtain ⟨hop, hf3, hrs1, hrs2, hhigh, hlow⟩ := fields_encS (funct3Of_lt w) (rs1Of w) (rs2Of w) (immS w)
  refine eq_of_store_fields (hop.trans h.symm) (hlow.trans ?_) hf3 hrs1 hrs2 (hhigh.trans ?_)
  · exact extract_eq_of_bits fun j hj => by rw [Nat.zero_add, getLsbD_immS w (by omega), if_pos hj]
  · refine extract_eq_of_bits fun j hj => ?_
    rw [getLsbD_immS w (by omega), if_neg (by omega), ← Nat.add_assoc]

/-- Settles O2: the decoded fields make up the whole word in either format, and a decoded immediate is in range. -/
theorem encodeOfDecodeIsTheWord : Obligations.EncodeOfDecodeIsTheWord := by
  intro w i h
  rcases decode_cases h with ⟨hop, hrow⟩ | ⟨hop, hrow⟩
  · obtain ⟨henc, hwf⟩ := encode_of_loadInstr hrow
    exact ⟨by rw [hwf, loadDecode, immI_eq, immInRange_signExtend], henc.trans (encI_loadDecode hop)⟩
  · obtain ⟨henc, hwf⟩ := encode_of_storeInstr hrow
    exact ⟨by rw [hwf, storeDecode, immS_eq, immInRange_signExtend], henc.trans (encS_storeDecode hop)⟩

/-! ### The opcode table -/

theorem opcodeOf_masked (w : Word) : opcodeOf (w &&& 0x707F#32) = opcodeOf w := by
  rw [opcodeOf, opcodeOf, extract, extract, BitVec.ushiftRight_and_distrib, BitVec.and_assoc]
  rfl

theorem funct3Of_masked (w : Word) : funct3Of (w &&& 0x707F#32) = funct3Of w := by
  rw [funct3Of, funct3Of, extract, extract, BitVec.ushiftRight_and_distrib, BitVec.and_assoc]
  rfl

/-- A word whose masked bits are a load row's decodes by that row's function-select, with its own operands. -/
theorem decode_of_loadRow {w m : Word} (h : w &&& 0x707F#32 = m) (hop : opcodeOf m = opcodeLoad) :
    decode w = loadInstr ⟨opcodeLoad, rdOf w, funct3Of m, rs1Of w, immI w⟩ := by
  subst h
  rw [opcodeOf_masked] at hop
  rw [decode_of_load hop, loadDecode, hop, funct3Of_masked]

/-- A word whose masked bits are a store row's decodes by that row's function-select, with its own operands. -/
theorem decode_of_storeRow {w m : Word} (h : w &&& 0x707F#32 = m) (hop : opcodeOf m = opcodeStore) :
    decode w = storeInstr ⟨opcodeStore, funct3Of m, rs1Of w, rs2Of w, immS w⟩ := by
  subst h
  rw [opcodeOf_masked] at hop
  rw [decode_of_store hop, storeDecode, hop, funct3Of_masked]

open Laws.TableMatch in
/-- Every instruction's word has its row's match value in the bits the table fixes. -/
theorem masked_encode (i : Instr) : encode i &&& 0x707F#32 = rowMatch i :=
  match i with
  | .lb .. => lb ..
  | .lh .. => lh ..
  | .lw .. => lw ..
  | .lbu .. => lbu ..
  | .lhu .. => lhu ..
  | .sb .. => sb ..
  | .sh .. => sh ..
  | .sw .. => sw ..

/-- A word that decodes is of its instruction's row, being that instruction's encoding. -/
theorem masked_of_decode {w : Word} {i : Instr} (h : decode w = .ok i) :
    w &&& 0x707F#32 = Laws.TableMatch.rowMatch i := by
  obtain ⟨-, henc⟩ := encodeOfDecodeIsTheWord w i h
  rw [← henc, masked_encode]

/-- Settles O4: each row by its function-select; a word of no row decodes to nothing, as `masked_of_decode` would put
it in its instruction's row. -/
theorem decodeFollowsTheOpcodeTable : Obligations.DecodeFollowsTheOpcodeTable := by
  intro w
  refine ⟨fun h => decode_of_loadRow h rfl, fun h => decode_of_loadRow h rfl, fun h => decode_of_loadRow h rfl,
    fun h => decode_of_loadRow h rfl, fun h => decode_of_loadRow h rfl, fun h => decode_of_storeRow h rfl,
    fun h => decode_of_storeRow h rfl, fun h => decode_of_storeRow h rfl, fun hnone => ?_⟩
  cases h : decode w with
  | error r => exact ⟨r, rfl⟩
  | ok i => exact absurd (masked_of_decode h) (hnone _ (by cases i <;> simp [Laws.TableMatch.rowMatch]))

/-- Settles O5: eight closed words, each decoded by evaluation. -/
theorem knownWordsDecode : Obligations.KnownWordsDecode := ⟨rfl, rfl, rfl, rfl, rfl, rfl, rfl, rfl⟩

end Sys2Proof
end

section
/-! The datapath's primitives bit by bit, and the split of an address (40_datapath.md R80 to R92). -/

namespace Sys2Proof

/-! ### Single bits -/

/-- A single 1 at a position inside the word. -/
theorem getLsbD_one_shiftLeft (i : Nat) {j : Nat} (hj : j < 32) : (1#32 <<< i).getLsbD j = decide (j = i) := by
  rw [← BitVec.twoPow_eq, BitVec.getLsbD_twoPow]
  by_cases h : j = i
  · subst h; simp [hj]
  · simp [h, Ne.symm h]

theorem getLsbD_setBit (w : Word) (i : Nat) {j : Nat} (hj : j < 32) :
    (setBit w i).getLsbD j = (decide (j = i) || w.getLsbD j) := by
  rw [setBit, BitVec.getLsbD_or, getLsbD_one_shiftLeft i hj, Bool.or_comm]

theorem getLsbD_clearBit (w : Word) (i : Nat) {j : Nat} (hj : j < 32) :
    (clearBit w i).getLsbD j = (!decide (j = i) && w.getLsbD j) := by
  rw [clearBit, BitVec.getLsbD_and, BitVec.getLsbD_not, getLsbD_one_shiftLeft i hj, decide_eq_true hj, Bool.true_and,
    Bool.and_comm]

theorem testBit_eq_getLsbD (w : Word) (i : Nat) : testBit w i = w.getLsbD i := by
  rw [testBit, BitVec.and_one_eq_setWidth_ofBool_getLsbD, BitVec.getLsbD_ushiftRight, Nat.add_zero]
  cases w.getLsbD i <;> rfl

/-- Settles O6: each primitive by the lemma that gives its bits. -/
theorem singleBitPrimitives : Obligations.SingleBitPrimitives := fun w i _ _ hj =>
  ⟨getLsbD_setBit w i (Nat.lt_succ_of_le hj), getLsbD_clearBit w i (Nat.lt_succ_of_le hj), testBit_eq_getLsbD w i⟩

/-! ### Masks and fields -/

theorem mask_toNat {n : Nat} (hn : n ≤ 32) : (mask n).toNat = 2 ^ n - 1 := by
  have hpow : 2 ^ n ≤ 2 ^ 32 := Nat.pow_le_pow_right (by decide) hn
  rw [mask, BitVec.toNat_ofNat]
  exact Nat.mod_eq_of_lt (by omega)

/-- Settles O7: the value has no reduction to lose up to 32, and the bits are those of `getLsbD_mask`. -/
theorem maskIsTheLowBits : Obligations.MaskIsTheLowBits := by
  refine fun n j hn => ⟨mask_toNat hn, ?_⟩
  rw [getLsbD_mask, ← Bool.decide_and, decide_eq_decide]
  omega

/-- A field moved to another place: its bits from there up, those past bit 31 lost (40_datapath.md R85). -/
theorem getLsbD_extractShift (w : Word) (lo n dst : Nat) {j : Nat} (hj : j < 32) :
    (extractShift w lo n dst).getLsbD j = (decide (dst ≤ j) && decide (j < dst + n) && w.getLsbD (lo + j - dst)) := by
  rw [extractShift, BitVec.getLsbD_shiftLeft, getLsbD_extract]
  by_cases h : dst ≤ j
  · have hbit : lo + (j - dst) = lo + j - dst := by omega
    have hfield : j - dst < n ↔ j < dst + n := by omega
    simp [hj, h, hbit, hfield, Nat.not_lt.2 h, Nat.lt_of_le_of_lt (Nat.sub_le j dst) hj]
  · simp [h, Nat.not_le.1 h]

/-- Settles O8: the bits of a field in its own place and in another. -/
theorem fieldExtraction : Obligations.FieldExtraction := by
  intro w lo n dst j _ _ _ hj
  have hj : j < 32 := Nat.lt_succ_of_le hj
  refine ⟨?_, getLsbD_extractShift w lo n dst hj⟩
  rw [getLsbD_extract, decide_eq_true hj, Bool.true_and]

/-! ### Extension -/

/-- Masking keeps the low bits and clears the rest: it is the zero extension of the low bits. -/
theorem and_mask_eq_setWidth (v : Word) (n : Nat) : v &&& mask n = (v.setWidth n).setWidth 32 := by
  apply BitVec.eq_of_getLsbD_eq
  intro j hj
  simp only [BitVec.getLsbD_and, getLsbD_mask, BitVec.getLsbD_setWidth, hj, decide_true, Bool.true_and, Bool.and_comm]

/-- Sign extension looks through a mask of its own width. -/
theorem signExtend_and_mask (v : Word) {n : Nat} (h1 : 1 ≤ n) (h2 : n ≤ 32) :
    signExtend (v &&& mask n) n = (v.setWidth n).signExtend 32 := by
  rw [← signExtend_eq_signExtend_setWidth v h1 h2]
  refine signExtend_congr h1 h2 fun j hj => ?_
  rw [BitVec.getLsbD_and, getLsbD_mask, decide_eq_true hj, decide_eq_true (Nat.lt_of_lt_of_le hj h2), Bool.and_true,
    Bool.and_true]

/-- Settles O9: sign extension at every width, its two fixed widths, and the masks 0xFF and 0xFFFF as zero extension. -/
theorem signExtensionReplicatesTheSignBit : Obligations.SignExtensionReplicatesTheSignBit :=
  ⟨fun v _ h1 h2 => signExtend_eq_signExtend_setWidth v h1 h2, fun v =>
    ⟨and_mask_eq_setWidth v 8, signExtend_eq_signExtend_setWidth v (by decide) (by decide),
      and_mask_eq_setWidth v 16, signExtend_eq_signExtend_setWidth v (by decide) (by decide)⟩⟩

/-! ### The split of an address -/

theorem baseOf_add_offsetOf_toNat (ea : Word) : (baseOf ea).toNat + offsetOf ea = ea.toNat := by
  rw [baseOf_toNat, offsetOf_eq_mod]
  omega

/-- Settles O10: base and offset by their values as numbers, and the four shifts by the four offsets. -/
theorem addressSplit : Obligations.AddressSplit := by
  intro ea
  have hlt := offsetOf_lt ea
  have hshift := shiftOf_eq ea
  exact ⟨rfl, baseOf_mod ea, baseOf_add_offsetOf_toNat ea, rfl, by omega, rfl, by omega⟩

/-- Settles O11: the comparison of R92 at each of the three widths; a straddling access has offset 1, 2 or 3. -/
theorem pathSelection : Obligations.PathSelection := by
  intro ea
  have hany : ∀ w : Width, straddles ea w = true ↔ 4 < ea.toNat % 4 + w.bytes := fun w => by
    rw [straddles_iff, offsetOf_eq_mod]
  have hmod : ea.toNat % 4 < 4 := Nat.mod_lt _ (by decide)
  refine ⟨hany, ?byte, ?half, ?word, fun w hs => ?shift⟩
  case byte =>
    rw [Bool.eq_false_iff, Ne, hany, Width.bytes]
    omega
  case half =>
    rw [hany, Width.bytes]
    omega
  case word =>
    rw [hany, Width.bytes]
    omega
  case shift =>
    rw [straddles_iff] at hs
    have hw := w.bytes_pos
    have hlt := offsetOf_lt ea
    have hshift := shiftOf_eq ea
    omega

end Sys2Proof
end

section
/-! Accesses at the end of the address space, and a load after a store (40_datapath.md R93, R104 to R106). -/

namespace Sys2Proof.Machine

/-! ### The second word -/

/-- The accesses that straddle at the last aligned word are those that do not fit the space (40_datapath.md R93). -/
theorem straddles_last_iff (ea : Word) (w : Width) :
    straddles ea w = true ∧ baseOf ea = 0xFFFFFFFC#32 ↔ ¬ fitsSpace ea w := by
  constructor
  · rintro ⟨hs, hlast⟩
    exact (straddle_last_iff hs).1 hlast
  · intro hf
    obtain ⟨hs, hnone⟩ := overflow_second hf
    exact ⟨hs, (secondWord_eq_none_iff _).1 hnone⟩

/-- The word after any aligned word but the last is four addresses up, without wrap. -/
theorem baseOf_add_four_toNat {ea : Word} (h : baseOf ea ≠ 0xFFFFFFFC#32) :
    (baseOf ea + 4#32).toNat = (baseOf ea).toNat + 4 := by
  have hmod := baseOf_mod ea
  bv_omega

/-- Settles O26: an access that does not fit halts by `exec_overflows`, and the second word of any other straddling one
exists. -/
theorem secondWordOverflowHalts : Obligations.SecondWordOverflowHalts := by
  intro r rs1 imm s f hf ea
  have hover : 2 ^ 32 < ea.toNat + f.2.bytes ↔ ¬ fitsSpace ea f.2 := Nat.not_le.symm
  refine ⟨(straddles_last_iff ea f.2).trans hover.symm, fun h => ?_, fun _ hlast => ⟨?_, baseOf_add_four_toNat hlast⟩⟩
  · have hhalt := exec_overflows (i := f.1) (s := s)
    rw [accessOf_accessForms hf s] at hhalt
    exact hhalt (hover.1 h)
  · rw [secondWord, if_neg hlast]

/-! ### A load after a store -/

/-- The bytes of a completed store's span make up the value stored (40_datapath.md R104, R105). -/
theorem leBytes_storeDone {s : State} (hm : Memory.wf s.mem) {ea : Word} {w : Width} (hf : fitsSpace ea w) (v : Word) :
    (storeDone w ea v s).leBytes ea w.bytes = storeValue w v := by
  have hw := w.bytes_pos
  refine eq_of_wordByte fun k hk => ?_
  rw [wordByte_leBytes _ ea hw.2 hk, wordByte_storeValue w v hk]
  split
  case isFalse => rfl
  case isTrue hkw =>
    have hspan : (ea + BitVec.ofNat 32 k - ea).toNat = k := by
      rw [add_sub_cancel_left, BitVec.toNat_ofNat]
      omega
    have hbyte := byteAt_storeMem hm hf v (ea + BitVec.ofNat 32 k)
    rwa [hspan, if_pos hkw] at hbyte

/-- After a store that completes, a load of its width at its address completes and puts the value stored, extended by
its own policy, into rd. -/
theorem emulateLoad_after_store {w : Width} {rs2 rs1 rd rb : RegIdx} {imm imm' : Word} {s t : State} (signed : Bool)
    (hm : Memory.wf s.mem) (hrd : rd ≠ 0) (hea : effectiveAddress rb imm' t = effectiveAddress rs1 imm s)
    (hh : t.halted = false) (h : emulateStore w rs2 rs1 imm s = .next t) :
    ∃ u, emulateLoad w signed rd rb imm' t = .next u ∧
      u.rf[rd] = extendLoad signed w (storeValue w (readReg rs2 s)) := by
  rcases emulateStore_cases h with ⟨-, ht⟩ | ⟨hf, ha, ht⟩
  · simp [ht] at hh
  · have hadmits : ∀ x ∈ loadPort (effectiveAddress rs1 imm s) w, admits t x.addr = true := fun x hx => by
      rw [admits_congr (s := s) (by rw [ht]; rfl)]
      exact ha x hx
    have hload := emulateLoad_admitted (s := t) (rs1 := rb) (imm := imm') signed rd (by rwa [hea]) (by rwa [hea])
    refine ⟨_, hload, ?_⟩
    rw [hea, loadDone, resumeNext_rf, writeReg_rf, putReg_same hrd, ht, leBytes_storeDone hm hf]

/-- What a signed load makes of a stored value: the sign extension of the source's low W bytes. -/
theorem extendLoad_signed_storeValue (w : Width) (v : Word) :
    extendLoad true w (storeValue w v) = (v.setWidth w.bits).signExtend 32 := by
  cases w with
  | byte => exact signExtend_and_mask v (n := 8) (by decide) (by decide)
  | half => exact signExtend_and_mask v (n := 16) (by decide) (by decide)
  | word =>
    rw [extendLoad_word, storeValue, and_mask_eq_setWidth]
    exact (BitVec.signExtend_eq _).symm

/-- What an unsigned load makes of a stored value: the zero extension of the source's low W bytes. -/
theorem extendLoad_unsigned_storeValue (w : Width) (v : Word) :
    extendLoad false w (storeValue w v) = (v.setWidth w.bits).setWidth 32 := by
  rw [extendLoad_unsigned, storeValue, and_mask_eq_setWidth]

/-- After a store that completes, the signed and the unsigned load of its width at its address complete and yield the
low W bytes of the stored register, sign- and zero-extended (40_datapath.md R106). -/
theorem emulateLoads_after_store {w : Width} {rs2 rs1 rd rb : RegIdx} {imm imm' : Word} {s t : State}
    (hm : Memory.wf s.mem) (hrd : rd ≠ 0) (hea : effectiveAddress rb imm' t = effectiveAddress rs1 imm s)
    (hh : t.halted = false) (h : emulateStore w rs2 rs1 imm s = .next t) :
    ∃ u v, emulateLoad w true rd rb imm' t = .next u ∧ emulateLoad w false rd rb imm' t = .next v ∧
      u.rf[rd] = ((readReg rs2 s).setWidth w.bits).signExtend 32 ∧
      v.rf[rd] = ((readReg rs2 s).setWidth w.bits).setWidth 32 := by
  obtain ⟨u, hu, hsigned⟩ := emulateLoad_after_store true hm hrd hea hh h
  obtain ⟨v, hv, hunsigned⟩ := emulateLoad_after_store false hm hrd hea hh h
  rw [extendLoad_signed_storeValue] at hsigned
  rw [extendLoad_unsigned_storeValue] at hunsigned
  exact ⟨u, v, hu, hv, hsigned, hunsigned⟩

/-- Settles O25: `emulateLoads_after_store` at the three widths; the four low bytes are the whole register. -/
theorem storeThenLoadRoundTrip : Obligations.StoreThenLoadRoundTrip := by
  intro rs2 rs1 rd rb imm imm' s t hm hrd hea hh
  have hloads := fun w => emulateLoads_after_store (w := w) (rs2 := rs2) hm hrd hea hh
  refine ⟨hloads .byte, hloads .half, fun h => ?_⟩
  obtain ⟨u, -, hu, -, hvalue, -⟩ := hloads .word h
  exact ⟨u, hu, hvalue.trans ((BitVec.signExtend_eq _).trans (BitVec.setWidth_eq _))⟩

end Sys2Proof.Machine
end

section
/-! The five loads: what a completed load writes and puts on the port, and what it leaves alone
(41_loads.md R110 to R120; 20_memory.md R46). -/

namespace Sys2Proof.Machine

open Sys2Proof.Claims

/-! ### The bytes a load writes -/

theorem leBytes_one (s : State) (ea : Word) : s.leBytes ea 1 = (s.byteAt ea).setWidth 32 := by
  simp [State.leBytes]

/-- A signed byte load sign-extends the byte (41_loads.md R111). -/
theorem extendLoad_signed_byte (b : Byte) : extendLoad true .byte (b.setWidth 32) = b.signExtend 32 := by
  rw [extendLoad_byte, signExtend_eq_signExtend_setWidth _ (by decide) (by decide),
    BitVec.setWidth_setWidth_of_le _ (by decide), BitVec.setWidth_eq]

/-- A signed halfword load sign-extends the halfword (41_loads.md R112). -/
theorem extendLoad_signed_half (h : BitVec 16) : extendLoad true .half (h.setWidth 32) = h.signExtend 32 := by
  rw [extendLoad_half, signExtend_eq_signExtend_setWidth _ (by decide) (by decide),
    BitVec.setWidth_setWidth_of_le _ (by decide), BitVec.setWidth_eq]

/-! ### The state a completed load leaves -/

/-- The reads of R46's table are the port transactions of a load. -/
theorem loadPort_eq_readsOf (ea : Word) (w : Width) : loadPort ea w = readsOf ea w := by
  by_cases hs : straddles ea w = true
  · have hn := hs
    rw [straddles_iff, offsetOf_eq_mod] at hn
    rw [loadPort, if_pos hs, readsOf, if_neg (Nat.not_le.2 hn)]
    rfl
  · have hn := hs
    rw [straddles_iff, offsetOf_eq_mod] at hn
    rw [loadPort, if_neg hs, readsOf, if_pos (Nat.not_lt.1 hn)]
    rfl

theorem loadDone_eq_afterLoad (w : Width) (signed : Bool) (rd : RegIdx) (ea : Word) (s : State) :
    loadDone w signed rd ea s = afterLoad s rd (extendLoad signed w (s.leBytes ea w.bytes)) ea w := by
  rw [loadDone, loadPort_eq_readsOf]
  rfl

/-- A load whose bytes exist and are served completes: the little-endian bytes at EA, extended, go into rd. -/
theorem emulateLoad_served {w : Width} {rs1 : RegIdx} {imm : Word} {s : State} (signed : Bool) (rd : RegIdx)
    (hf : fitsSpace (readReg rs1 s + imm) w) (hs : served s (readReg rs1 s + imm) w) :
    emulateLoad w signed rd rs1 imm s =
      .next (afterLoad s rd (extendLoad signed w (s.leBytes (readReg rs1 s + imm) w.bytes)) (readReg rs1 s + imm) w) := by
  rw [← loadDone_eq_afterLoad]
  exact emulateLoad_admitted signed rd hf (served_loadPort hs)

/-- A single byte never runs past the address space. -/
theorem fitsSpace_byte (ea : Word) : fitsSpace ea .byte := ea.isLt

/-- Settles O16: `emulateLoad_served` at one byte, which always exists. -/
theorem byteLoadsComplete : Obligations.ByteLoadsComplete := by
  intro rd rs1 imm s hs ea
  have hload := fun signed => emulateLoad_served signed rd (fitsSpace_byte ea) hs
  simp only [Width.bytes, leBytes_one] at hload
  have hsigned := hload true
  rw [extendLoad_signed_byte] at hsigned
  exact ⟨hsigned, hload false⟩

/-- Settles O17: `emulateLoad_served` at two bytes. -/
theorem halfwordLoadsComplete : Obligations.HalfwordLoadsComplete := by
  intro rd rs1 imm s hf hs ea
  have hload := fun signed => emulateLoad_served signed rd hf hs
  simp only [Width.bytes, leBytes_two] at hload
  have hsigned := hload true
  rw [extendLoad_signed_half] at hsigned
  exact ⟨hsigned, hload false⟩

/-- Settles O18: `emulateLoad_served` at four bytes, which no extension changes. -/
theorem wordLoadCompletes : Obligations.WordLoadCompletes := by
  intro rd rs1 imm s hf hs ea
  have hload := emulateLoad_served true rd hf hs
  rw [extendLoad_word, Width.bytes, leBytes_four] at hload
  exact hload

/-! ### All five loads -/

theorem accessOf_loadForms {rd rs1 : RegIdx} {imm : Word} {f : Instr × Width} (hf : f ∈ loadForms rd rs1 imm)
    (s : State) : accessOf f.1 s = (readReg rs1 s + imm, f.2) :=
  accessOf_accessForms (List.mem_append_left _ hf) s

/-- A completed load, whichever of the five it is, writes some value to rd and reads the words of its access. -/
theorem execDone_loadForms {rd rs1 : RegIdx} {imm : Word} {f : Instr × Width} (hf : f ∈ loadForms rd rs1 imm)
    (s : State) : ∃ v, execDone f.1 s = afterLoad s rd v (readReg rs1 s + imm) f.2 := by
  have hdest : destOf f.1 = some rd := by
    revert f
    simp [loadForms, destOf]
  rcases execDone_load_or_store f.1 s with ⟨r, v, hr, hdone⟩ | ⟨v, hnone, -⟩
  · obtain rfl : rd = r := Option.some.inj (hdest.symm.trans hr)
    rw [accessOf_loadForms hf, loadPort_eq_readsOf] at hdone
    exact ⟨v, hdone⟩
  · exact nomatch hdest.symm.trans hnone

/-- Settles O19: the load completes or overflows as any other, and `x[0] <- v` writes no slot. -/
theorem loadToRegisterZero : Obligations.LoadToRegisterZero := by
  intro rs1 imm s f hf
  constructor
  · intro hfits hserved
    obtain ⟨v, hdone⟩ := execDone_loadForms hf s
    have hexec := exec_admitted (i := f.1) (s := s)
    rw [accessOf_loadForms hf, hdone] at hexec
    exact hexec hfits (served_loadPort hserved)
  · intro hfits
    have hexec := exec_overflows (i := f.1) (s := s)
    rw [accessOf_loadForms hf] at hexec
    exact hexec hfits

/-- Settles O20: a load that halts changes no register, and one that completes changes the slot of rd alone. -/
theorem loadFrame : Obligations.LoadFrame := by
  intro rd rs1 imm s t f hf h
  rcases exec_cases h with ⟨-, rfl⟩ | ⟨-, -, rfl⟩
  · exact ⟨fun _ _ => rfl, rfl, rfl, fun _ => rfl, fun _ => .inr rfl, .inr ⟨rfl, rfl⟩, rfl, rfl, rfl, rfl, rfl⟩
  · obtain ⟨v, hdone⟩ := execDone_loadForms hf s
    rw [hdone]
    exact ⟨fun _ hj => putReg_other hj s.rf v, putReg_slotZero s.rf rd v, rfl, fun _ => rfl, .inl, .inl ⟨rfl, rfl⟩, rfl,
      rfl, rfl, rfl, rfl⟩

end Sys2Proof.Machine
end

section
/-! The router against the spec's pseudocode, and the words it refuses (30_encoding.md R70 to R73; 41_loads.md R110,
R116; 42_stores.md R130, R134; 60_exceptions.md R152 to R158). -/

namespace Sys2Proof.Machine

open Sys2Proof.Claims

/-! ### The function-selects -/

/-- A load's function-select names no width and no instruction, or names an instruction that is the load emulator at
the width and extension the pseudocode reads from it (30_encoding.md R71). -/
theorem loadInstr_cases (d : DecodedLoad) :
    (Pseudo.loadWidth d.funct3 = none ∧ loadInstr d = .error .invalidFunct3) ∨
    ∃ w signed i, Pseudo.loadWidth d.funct3 = some (Width.bytes w, signed) ∧ loadInstr d = .ok i ∧
      ∀ s, exec i s = emulateLoad w signed d.rd d.rs1 d.imm s := by
  have hwidth : ∀ {n : Nat}, d.funct3.toNat = n → Pseudo.loadWidth d.funct3 = Pseudo.loadWidth (BitVec.ofNat 32 n) :=
    fun h => by rw [eq_ofNat_of_toNat_eq h]
  unfold loadInstr
  split
  case h_1 h => exact .inr ⟨.byte, true, _, hwidth h, rfl, fun _ => rfl⟩
  case h_2 h => exact .inr ⟨.half, true, _, hwidth h, rfl, fun _ => rfl⟩
  case h_3 h => exact .inr ⟨.word, true, _, hwidth h, rfl, fun _ => rfl⟩
  case h_4 h => exact .inr ⟨.byte, false, _, hwidth h, rfl, fun _ => rfl⟩
  case h_5 h => exact .inr ⟨.half, false, _, hwidth h, rfl, fun _ => rfl⟩
  case h_6 h0 h1 h2 h4 h5 =>
    refine .inl ⟨if_neg ?_, rfl⟩
    rintro (h | h | h | h | h) <;> simp [h] at h0 h1 h2 h4 h5

/-- A store's function-select is above 2 and names no instruction, or names an instruction that is the store emulator
at the width `1 << funct3` (30_encoding.md R72). -/
theorem storeInstr_cases (d : DecodedStore) :
    (2 < d.funct3.toNat ∧ storeInstr d = .error .invalidFunct3) ∨
    ∃ w i, d.funct3.toNat ≤ 2 ∧ 1 <<< d.funct3.toNat = Width.bytes w ∧ storeInstr d = .ok i ∧
      ∀ s, exec i s = emulateStore w d.rs2 d.rs1 d.imm s := by
  unfold storeInstr
  split
  case h_1 h => exact .inr ⟨.byte, _, by omega, by rw [h]; rfl, rfl, fun _ => rfl⟩
  case h_2 h => exact .inr ⟨.half, _, by omega, by rw [h]; rfl, rfl, fun _ => rfl⟩
  case h_3 h => exact .inr ⟨.word, _, by omega, by rw [h]; rfl, rfl, fun _ => rfl⟩
  case h_4 h0 h1 h2 =>
    rw [imp_false] at h0 h1 h2
    exact .inl ⟨by omega, rfl⟩

/-! ### The checks before decoding -/

theorem emulatedCode_iff (code : Word) : emulatedCode code = true ↔ code = 0#32 ∨ code = 4#32 ∨ code = 6#32 := by
  simp [emulatedCode, or_assoc]

theorem needsTranslation_iff (snap : PrivilegeSnapshot) :
    needsTranslation snap = true ↔ snap.prevPriv ≠ .machine ∧ snap.xlate = .paged := by
  simp [needsTranslation]

/-- A request that stops at none of the pseudocode's two checks passes the checks (60_exceptions.md R154, R155). -/
theorem passesChecks_of_not_halted {req : Request} {code : Word} (hc : req.cause = .exception code)
    (hcode : code = 0#32 ∨ code = 4#32 ∨ code = 6#32)
    (hsnap : ¬(req.snap.prevPriv ≠ .machine ∧ req.snap.xlate = .paged)) : passesChecks req := by
  refine ⟨?_, fun ⟨hlower, hpaged⟩ => hsnap ⟨?_, hpaged⟩⟩
  · rcases hcode with rfl | rfl | rfl <;> simp [hc]
  · rw [hlower]
    exact nofun

/-! ### The emulator a word is handed to -/

/-- The end of a request whose word is refused: a fail-stop as InvalidInstruction, whichever way it was refused
(60_exceptions.md R157, R158). -/
theorem rejectReason_eq (r : DecodeReject) : rejectReason r = .invalidInstruction := by
  cases r <;> rfl

/-- A request that passes the checks and whose word is refused halts (60_exceptions.md R157, R158). -/
theorem handle_refused {s : State} {r : DecodeReject} (h : passesChecks s.request)
    (hd : decode s.request.instr = .error r) : handle s = .next (raiseHalt .invalidInstruction s) := by
  rw [handle_passes h, hd, ← rejectReason_eq r]

/-- A request that passes the checks and whose word decodes runs the instruction. -/
theorem handle_decoded {s : State} {i : Instr} (h : passesChecks s.request) (hd : decode s.request.instr = .ok i) :
    handle s = exec i s := by
  rw [handle_passes h, hd]

/-- A LOAD word that passes the checks runs the pseudocode's load emulator. -/
theorem handle_load {s : State} (h : passesChecks s.request) (hop : opcodeOf s.request.instr = opcodeLoad) :
    handle s = Pseudo.conclude (Pseudo.emulateLoad s.request.instr s.request.faultingPc s) := by
  have hdecode := decode_of_load hop
  rcases loadInstr_cases (loadDecode s.request.instr) with ⟨hwidth, hi⟩ | ⟨w, signed, i, hwidth, hi, hexec⟩
  · rw [handle_refused h (hdecode.trans hi), Pseudo.emulateLoad, hwidth]
    rfl
  · rw [handle_decoded h (hdecode.trans hi), hexec]
    exact emulateLoad_eq_pseudo w signed _ _ s rfl hwidth

/-- A STORE word that passes the checks runs the pseudocode's store emulator. -/
theorem handle_store {s : State} (h : passesChecks s.request) (hop : opcodeOf s.request.instr = opcodeStore) :
    handle s = Pseudo.conclude (Pseudo.emulateStore s.request.instr s.request.faultingPc s) := by
  have hdecode := decode_of_store hop
  rcases storeInstr_cases (storeDecode s.request.instr) with ⟨hlt, hi⟩ | ⟨w, i, hle, hw, hi, hexec⟩
  · rw [handle_refused h (hdecode.trans hi), Pseudo.emulateStore, if_pos hlt]
    rfl
  · rw [handle_decoded h (hdecode.trans hi), hexec]
    exact emulateStore_eq_pseudo w _ _ s rfl hle hw

theorem decode_of_neither {w : Word} (hl : opcodeOf w ≠ opcodeLoad) (hs : opcodeOf w ≠ opcodeStore) :
    decode w = .error .unsupportedOpcode := by
  rw [decode, if_neg hl, if_neg hs]

/-- The opcode as the pseudocode compares it, on its 7 bits (30_encoding.md R70). -/
theorem opcodeOf_eq_load_iff (w : Word) : opcodeOf w = opcodeLoad ↔ w.extractLsb' 0 7 = 0b0000011#7 :=
  opcodeOf_eq_iff w 0b0000011#7

theorem opcodeOf_eq_store_iff (w : Word) : opcodeOf w = opcodeStore ↔ w.extractLsb' 0 7 = 0b0100011#7 :=
  opcodeOf_eq_iff w 0b0100011#7

theorem handle_exception {s : State} {code : Word} (hc : s.request.cause = .exception code) :
    handle s = exceptionPath code s := by
  simp only [handle, hc]

/-- The router is the pseudocode's, on whatever request is at the port: an interrupt takes the same path on both sides,
and an exception is decided by the same checks in the same order, then by the emulator its opcode names
(60_exceptions.md R152). -/
theorem handle_eq_pseudo (s : State) : handle s = Pseudo.handle s.request s := by
  cases hc : s.request.cause with
  | interrupt code => rw [handle_interrupt hc, Pseudo.handle, hc]
  | exception code =>
    simp only [Pseudo.handle, hc]
    by_cases hcode : code = 0#32 ∨ code = 4#32 ∨ code = 6#32
    case neg =>
      have hemulated : emulatedCode code = false := by rwa [← Bool.not_eq_true, emulatedCode_iff]
      rw [if_pos hcode, handle_exception hc, exceptionPath, hemulated]
      rfl
    rw [if_neg (not_not_intro hcode)]
    by_cases hsnap : s.request.snap.prevPriv ≠ .machine ∧ s.request.snap.xlate = .paged
    case pos =>
      rw [if_pos hsnap, handle_exception hc, exceptionPath, (emulatedCode_iff code).2 hcode,
        (needsTranslation_iff _).2 hsnap]
      rfl
    have hpass := passesChecks_of_not_halted hc hcode hsnap
    rw [if_neg hsnap]
    split
    case isTrue hload => exact handle_load hpass ((opcodeOf_eq_load_iff _).2 hload)
    case isFalse hload =>
      have hload := mt (opcodeOf_eq_load_iff _).1 hload
      split
      case isTrue hstore => exact handle_store hpass ((opcodeOf_eq_store_iff _).2 hstore)
      case isFalse hstore =>
        exact handle_refused hpass (decode_of_neither hload (mt (opcodeOf_eq_store_iff _).1 hstore))

/-- Settles O30: a delivered request is handled as taken up, and the router is the pseudocode's. -/
theorem stepRefinesThePseudocode : Obligations.StepRefinesThePseudocode := by
  rintro s frame req rest ⟨hi, hh⟩
  rw [step_trap hi hh]
  exact handle_eq_pseudo (accept frame req { s with inbox := rest })

/-! ### Refused words -/

theorem funct3Of_eq_setWidth (w : Word) : funct3Of w = (funct3Bits w).setWidth 32 := extract_eq_setWidth w 12 3

/-- A LOAD word with function-select 3, 6 or 7 is refused (41_loads.md R116). -/
theorem decode_load_refused {w : Word} (hop : opcodeOf w = opcodeLoad)
    (hf : funct3Bits w = 3#3 ∨ funct3Bits w = 6#3 ∨ funct3Bits w = 7#3) : decode w = .error .invalidFunct3 := by
  have hnone : Pseudo.loadWidth (funct3Of w) = none := by
    rw [funct3Of_eq_setWidth]
    rcases hf with h | h | h <;> rw [h] <;> rfl
  rw [decode_of_load hop]
  rcases loadInstr_cases (loadDecode w) with ⟨-, hi⟩ | ⟨_, _, _, hsome, -⟩
  · exact hi
  · exact nomatch hnone.symm.trans hsome

/-- A STORE word with function-select 3 to 7 is refused (42_stores.md R134). -/
theorem decode_store_refused {w : Word} (hop : opcodeOf w = opcodeStore)
    (hf : funct3Bits w = 3#3 ∨ funct3Bits w = 4#3 ∨ funct3Bits w = 5#3 ∨ funct3Bits w = 6#3 ∨ funct3Bits w = 7#3) :
    decode w = .error .invalidFunct3 := by
  have hlarge : 2 < (funct3Of w).toNat := by
    rw [funct3Of_eq_setWidth]
    rcases hf with h | h | h | h | h <;> rw [h] <;> decide
  rw [decode_of_store hop]
  rcases storeInstr_cases (storeDecode w) with ⟨-, hi⟩ | ⟨_, _, hsmall, -⟩
  · exact hi
  · exact absurd hlarge (Nat.not_lt.2 hsmall)

/-- Every word of R73's table decodes to nothing. -/
theorem decode_refusedWord {w : Word} (h : refusedWord w) : ∃ r, decode w = .error r := by
  rcases h with ⟨hload, hstore⟩ | ⟨hload, hf⟩ | ⟨hstore, hf⟩
  · exact ⟨_, decode_of_neither (mt (opcodeOf_eq_load_iff w).1 hload) (mt (opcodeOf_eq_store_iff w).1 hstore)⟩
  · exact ⟨_, decode_load_refused ((opcodeOf_eq_load_iff w).2 hload) hf⟩
  · exact ⟨_, decode_store_refused ((opcodeOf_eq_store_iff w).2 hstore) hf⟩

/-- Settles O33: a refused word decodes to nothing, and what decodes to nothing halts. -/
theorem invalidInstructionHalts : Obligations.InvalidInstructionHalts := by
  rintro s frame req rest ⟨hi, hh⟩ hpass hrefused
  obtain ⟨r, hr⟩ := decode_refusedWord hrefused
  rw [step_trap hi hh]
  exact handle_refused (s := accept frame req { s with inbox := rest }) hpass hr

end Sys2Proof.Machine
end

section
/-! The three stores: the bytes a completed store writes, what it puts on the port, and what it leaves alone
(42_stores.md R130 to R138; 20_memory.md R46; 40_datapath.md R99 to R104). -/

namespace Sys2Proof.Machine

open Sys2Proof.Claims

/-! ### The words memory holds after a store -/

/-- After a single-word store the word at the base is the merged one (40_datapath.md R99). -/
theorem readWord_storeMem_single {m : Memory} (hm : Memory.wf m) {ea : Word} {w : Width} (hs : ¬ straddles ea w = true)
    (v : Word) :
    (storeMem ea v w m).readWord (baseOf ea) = mergeStore (m.readWord (baseOf ea)) (storeValue w v) w (shiftOf ea) := by
  rw [storeMem, if_neg hs, Memory.readWord_writeWord_same hm]

/-- After a straddling store the low word is the merged low word: the write of the next word, made after it, leaves it
alone (40_datapath.md R100). -/
theorem readWord_storeMem_low {m : Memory} (hm : Memory.wf m) {ea : Word} {w : Width} (hs : straddles ea w = true)
    (v : Word) :
    (storeMem ea v w m).readWord (baseOf ea) = mergeStoreLow (m.readWord (baseOf ea)) (storeValue w v) (shiftOf ea) := by
  have hne : baseOf ea ≠ baseOf ea + 4#32 := by bv_omega
  rw [storeMem, if_pos hs,
    readWord_writeWord_other (Memory.wf_writeWord hm _ _) (aligned_next ea) (aligned_base ea) hne,
    Memory.readWord_writeWord_same hm]

/-- After a straddling store the high word is the merged high word (40_datapath.md R101). -/
theorem readWord_storeMem_high {m : Memory} (hm : Memory.wf m) {ea : Word} {w : Width} (hs : straddles ea w = true)
    (v : Word) :
    (storeMem ea v w m).readWord (baseOf ea + 4#32) =
      mergeStoreHigh (m.readWord (baseOf ea + 4#32)) (storeValue w v) (highBytes ea w) (shiftOf ea) := by
  rw [storeMem, if_pos hs, Memory.readWord_writeWord_same (Memory.wf_writeWord hm _ _)]

/-! ### What a store puts on the port -/

/-- A single-word store writes the word at its base. -/
theorem writesOf_single {ea : Word} {w : Width} (hs : ¬ straddles ea w = true) (m : Memory) :
    writesOf ea w m = [.write (baseOf ea) (m.readWord (baseOf ea))] := by
  rw [straddles_iff, offsetOf_eq_mod] at hs
  rw [writesOf, if_pos (Nat.not_lt.1 hs)]
  rfl

/-- A straddling store writes the word at its base and then the next one. -/
theorem writesOf_straddle {ea : Word} {w : Width} (hs : straddles ea w = true) (m : Memory) :
    writesOf ea w m =
      [.write (baseOf ea) (m.readWord (baseOf ea)), .write (baseOf ea + 4#32) (m.readWord (baseOf ea + 4#32))] := by
  rw [straddles_iff, offsetOf_eq_mod] at hs
  rw [writesOf, if_neg (Nat.not_le.2 hs)]
  rfl

/-- The port transactions of a store are the reads of R46's table and then its writes, of the words memory holds
afterwards. -/
theorem storePort_eq_reads_writes {m : Memory} (hm : Memory.wf m) (ea v : Word) (w : Width) :
    storePort ea v w m = readsOf ea w ++ writesOf ea w (storeMem ea v w m) := by
  rw [← loadPort_eq_readsOf]
  by_cases hs : straddles ea w = true
  · rw [writesOf_straddle hs, readWord_storeMem_low hm hs, readWord_storeMem_high hm hs, storePort, if_pos hs, loadPort,
      if_pos hs]
    rfl
  · rw [writesOf_single hs, readWord_storeMem_single hm hs, storePort, if_neg hs, loadPort, if_neg hs]
    rfl

/-! ### The state a completed store leaves -/

theorem storeDone_eq_afterStore {s : State} (hm : Memory.wf s.mem) (w : Width) (ea v : Word) :
    storeDone w ea v s = afterStore s (storeMem ea v w s.mem) ea w := by
  rw [storeDone, storePort_eq_reads_writes hm]
  rfl

/-- Byte k of a completed store's span is byte k of the value stored (40_datapath.md R104). -/
theorem byteAt_storeMem_span {m : Memory} (hm : Memory.wf m) {ea : Word} {w : Width} (hf : fitsSpace ea w) (v : Word)
    {k : Nat} (hk : k < w.bytes) : (storeMem ea v w m).byteAt (ea + BitVec.ofNat 32 k) = wordByte v k := by
  have hw := w.bytes_pos
  have hspan : (ea + BitVec.ofNat 32 k - ea).toNat = k := by
    rw [add_sub_cancel_left, BitVec.toNat_ofNat]
    omega
  rw [byteAt_storeMem hm hf, hspan, if_pos hk]

/-- A byte outside a store's span is as it was (40_datapath.md R104). -/
theorem byteAt_storeMem_outside {m : Memory} (hm : Memory.wf m) {ea : Word} {w : Width} (hf : fitsSpace ea w)
    (v : Word) {a : Word} (ha : ¬ inSpan ea w a) : (storeMem ea v w m).byteAt a = m.byteAt a := by
  rw [byteAt_storeMem hm hf, if_neg ha]

/-- A store whose bytes exist and are served completes: its span takes the low W bytes of the source, and no other byte
changes (42_stores.md R130, R137). -/
theorem emulateStore_served {w : Width} {rs1 : RegIdx} {imm : Word} {s : State} (rs2 : RegIdx) (hm : Memory.wf s.mem)
    (hf : fitsSpace (readReg rs1 s + imm) w) (hs : served s (readReg rs1 s + imm) w) :
    ∃ m : Memory, emulateStore w rs2 rs1 imm s = .next (afterStore s m (readReg rs1 s + imm) w) ∧ Memory.wf m ∧
      (∀ k, k < w.bytes → m.byteAt (readReg rs1 s + imm + BitVec.ofNat 32 k) = wordByte (readReg rs2 s) k) ∧
      ∀ a : Word, ¬ inSpan (readReg rs1 s + imm) w a → m.byteAt a = s.byteAt a := by
  have hdone := emulateStore_admitted rs2 hf (served_loadPort hs)
  rw [storeDone_eq_afterStore hm] at hdone
  exact ⟨_, hdone, wf_storeMem hm _ _ _, fun _ => byteAt_storeMem_span hm hf _, fun _ => byteAt_storeMem_outside hm hf _⟩

/-- Settles O21: `emulateStore_served` at one byte, which always exists. -/
theorem byteStoreCompletes : Obligations.ByteStoreCompletes := by
  intro rs2 rs1 imm s hm hs ea
  obtain ⟨m, hexec, hwf, hbytes, hother⟩ := emulateStore_served rs2 hm (fitsSpace_byte ea) hs
  have hbyte := hbytes 0 (by decide)
  rw [BitVec.add_zero] at hbyte
  exact ⟨m, hexec, hwf, hbyte, hother⟩

/-- Settles O22: `emulateStore_served` at two bytes. -/
theorem halfwordStoreCompletes : Obligations.HalfwordStoreCompletes := by
  intro rs2 rs1 imm s hm hf hs ea
  obtain ⟨m, hexec, hwf, hbytes, hother⟩ := emulateStore_served rs2 hm hf hs
  have hlow := hbytes 0 (by decide)
  rw [BitVec.add_zero] at hlow
  exact ⟨m, hexec, hwf, hlow, hbytes 1 (by decide), hother⟩

/-- Settles O23: `emulateStore_served` at four bytes. -/
theorem wordStoreCompletes : Obligations.WordStoreCompletes :=
  fun rs2 _ _ _ hm hf hs => emulateStore_served rs2 hm hf hs

/-! ### All three stores -/

theorem accessOf_storeForms {rs2 rs1 : RegIdx} {imm : Word} {f : Instr × Width} (hf : f ∈ storeForms rs2 rs1 imm)
    (s : State) : accessOf f.1 s = (effectiveAddress rs1 imm s, f.2) :=
  accessOf_accessForms (List.mem_append_right _ hf) s

/-- A completed store, whichever of the three it is, stores some value over its access. -/
theorem execDone_storeForms {rs2 rs1 : RegIdx} {imm : Word} {f : Instr × Width} (hf : f ∈ storeForms rs2 rs1 imm)
    (s : State) : ∃ v, execDone f.1 s = storeDone f.2 (effectiveAddress rs1 imm s) v s := by
  have hdest : destOf f.1 = none := by
    revert f
    simp [storeForms, destOf]
  rcases execDone_load_or_store f.1 s with ⟨r, v, hr, -⟩ | ⟨v, -, hdone⟩
  · exact nomatch hdest.symm.trans hr
  · rw [accessOf_storeForms hf] at hdone
    exact ⟨v, hdone⟩

/-- Settles O24: a store that overflows does nothing but halt, and one that completes changes no byte outside its
span. -/
theorem storeFrame : Obligations.StoreFrame := by
  intro rs2 rs1 imm s t hm f hf h
  rcases exec_cases h with ⟨-, rfl⟩ | ⟨hfits, -, rfl⟩
  · exact ⟨rfl, fun _ _ => rfl, .inr rfl, rfl, rfl, rfl, rfl, rfl⟩
  · rw [accessOf_storeForms hf] at hfits
    obtain ⟨v, hdone⟩ := execDone_storeForms hf s
    rw [hdone]
    exact ⟨rfl, fun _ => byteAt_storeMem_outside hm hfits v, .inl ⟨rfl, rfl, hfits⟩, rfl, rfl, rfl, rfl, rfl⟩

end Sys2Proof.Machine
end

section
/-! A delivered request at the router: the checks in their order, and the instruction a request that passes them runs
(60_exceptions.md R150, R152 to R162). -/

namespace Sys2Proof.Machine

open Sys2Proof.Claims

/-- A delivered request is handled in the state that has taken it up. -/
theorem step_of_delivers {s : State} {frame : Option RegFile} {req : Request} {rest : List Input}
    (h : delivers s frame req rest) : step s = handle (takenUp s frame req rest) :=
  step_trap h.1 h.2

/-! ### Running the decoded instruction -/

/-- Settles O28: a request that passes the checks is decided by its word. -/
theorem stepRunsTheDecodedInstruction : Obligations.StepRunsTheDecodedInstruction := by
  intro s frame req rest i hs hpass hi
  rw [step_of_delivers hs]
  exact handle_decoded (s := takenUp s frame req rest) hpass hi

/-- The request that places a word passes the checks: a misaligned-load cause from machine mode. -/
theorem passesChecks_fetchRequest (w : Word) (s : State) : passesChecks (fetchRequest w s) :=
  ⟨.inr (.inl rfl), nofun⟩

/-- All 32 bits of a word are placed. -/
theorem withFetchWord_toNat (s : State) (w : Word) : s.withFetchWord 32 w.toNat = placeWord w s := by
  rw [State.withFetchWord, Nat.mod_eq_of_lt w.isLt, BitVec.ofNat_toNat, BitVec.setWidth_eq]

/-- Settles O29: the placing request is delivered next, whatever the state, and it passes the checks. -/
theorem placedWordRunsNext : Obligations.PlacedWordRunsNext := by
  intro s w i hi
  rw [withFetchWord_toNat]
  exact stepRunsTheDecodedInstruction (placeWord w s) none (fetchRequest w s) s.inbox i ⟨rfl, rfl⟩
    (passesChecks_fetchRequest w s) hi

/-! ### The cause check and the translation check -/

theorem Privilege.ne_machine_iff (p : Privilege) : p ≠ .machine ↔ p = .lower := by
  cases p <;> decide

theorem not_emulated_iff (code : Word) :
    ¬(code = 0#32 ∨ code = 4#32 ∨ code = 6#32) ↔ code ≠ 0#32 ∧ code ≠ 4#32 ∧ code ≠ 6#32 := by
  simp only [not_or, ne_eq]

/-- The first check: a code that is not emulated halts (60_exceptions.md R154). -/
theorem handle_unsupported {s : State} {code : Word} (hc : s.request.cause = .exception code)
    (hcode : ¬(code = 0#32 ∨ code = 4#32 ∨ code = 6#32)) : handle s = .next (afterHalt s .unsupportedCause) := by
  have hemulated : emulatedCode code = false := by rwa [← Bool.not_eq_true, emulatedCode_iff]
  rw [handle_exception hc, exceptionPath, hemulated]
  rfl

/-- The second check: an emulated code from a lower privilege under paging halts (60_exceptions.md R155). -/
theorem handle_translation {s : State} {code : Word} (hc : s.request.cause = .exception code)
    (hcode : code = 0#32 ∨ code = 4#32 ∨ code = 6#32)
    (hsnap : s.request.snap.prevPriv = .lower ∧ s.request.snap.xlate = .paged) :
    handle s = .next (afterHalt s .translationRequired) := by
  have hneeds : needsTranslation s.request.snap = true := by
    rwa [needsTranslation_iff, Privilege.ne_machine_iff]
  rw [handle_exception hc, exceptionPath, (emulatedCode_iff code).2 hcode, hneeds]
  rfl

/-- A request that neither check stops passes the checks. -/
theorem passesChecks_of_emulated {req : Request} {code : Word} (hc : req.cause = .exception code)
    (hcode : code = 0#32 ∨ code = 4#32 ∨ code = 6#32)
    (hsnap : ¬(req.snap.prevPriv = .lower ∧ req.snap.xlate = .paged)) : passesChecks req :=
  passesChecks_of_not_halted hc hcode (by rwa [Privilege.ne_machine_iff])

/-! ### The halt reason -/

/-- The halt reason of a request that passes the first two checks: that of its word, then that of its address
(60_exceptions.md R162). -/
def reasonPastChecks (s : State) : Option HaltReason :=
  match decode s.request.instr with
  | .error _ => some .invalidInstruction
  | .ok i => if 2 ^ 32 < (accessOf i s).1.toNat + (accessOf i s).2.bytes then some .addressOverflow else none

/-- Past the first two checks neither of their reasons is recorded. -/
theorem reasonPastChecks_ne (s : State) :
    reasonPastChecks s ≠ some .unsupportedCause ∧ reasonPastChecks s ≠ some .translationRequired := by
  unfold reasonPastChecks
  split
  case h_1 => exact ⟨nofun, nofun⟩
  case h_2 => split <;> exact ⟨nofun, nofun⟩

/-- An instruction records a reason when its access does not fit the space, and otherwise none of its own. -/
theorem exec_haltReason {i : Instr} {s t : State} (h : exec i s = .next t) (hr : s.haltReason = none) :
    t.haltReason =
      if 2 ^ 32 < (accessOf i s).1.toNat + (accessOf i s).2.bytes then some .addressOverflow else none := by
  rcases exec_cases h with ⟨hover, rfl⟩ | ⟨hfits, -, rfl⟩
  · rw [if_pos (Nat.not_le.1 hover), raiseHalt_haltReason]
  · obtain ⟨-, hreason, -⟩ := execDone_spec i s
    rw [if_neg (Nat.not_lt.2 hfits), hreason, hr]

theorem handle_passes_haltReason {s t : State} (hpass : passesChecks s.request) (hr : s.haltReason = none)
    (h : handle s = .next t) : t.haltReason = reasonPastChecks s := by
  unfold reasonPastChecks
  split
  case h_1 r hd =>
    rw [handle_refused hpass hd] at h
    injection h with h
    rw [← h, raiseHalt_haltReason]
  case h_2 i hd =>
    rw [handle_decoded hpass hd] at h
    exact exec_haltReason h hr

/-- Settles O34: the three ways through the checks, each with the reason it records. -/
theorem checksInOrder : Obligations.ChecksInOrder := by
  intro s t frame req rest code hs hr hc h
  rw [step_of_delivers hs] at h
  by_cases hcode : code = 0#32 ∨ code = 4#32 ∨ code = 6#32
  case neg =>
    rw [handle_unsupported (s := takenUp s frame req rest) hc hcode] at h
    injection h with h
    rw [if_pos ((not_emulated_iff code).1 hcode), ← h]
    rfl
  rw [if_neg (mt (not_emulated_iff code).2 (not_not_intro hcode))]
  by_cases hsnap : req.snap.prevPriv = .lower ∧ req.snap.xlate = .paged
  case pos =>
    rw [handle_translation (s := takenUp s frame req rest) hc hcode hsnap] at h
    injection h with h
    rw [if_pos hsnap, ← h]
    rfl
  case neg =>
    rw [if_neg hsnap]
    exact handle_passes_haltReason (s := takenUp s frame req rest) (passesChecks_of_emulated hc hcode hsnap) hr h

/-- Settles O31: the first check halts every other code, and an emulated code is stopped, if at all, for a later
check's reason. -/
theorem unsupportedCauseHalts : Obligations.UnsupportedCauseHalts := by
  intro s frame req rest code hs hc
  rw [step_of_delivers hs]
  refine ⟨fun h0 h4 h6 => ?_, fun hcode hr t h => ?_⟩
  · exact handle_unsupported (s := takenUp s frame req rest) hc ((not_emulated_iff code).2 ⟨h0, h4, h6⟩)
  · by_cases hsnap : req.snap.prevPriv = .lower ∧ req.snap.xlate = .paged
    · rw [handle_translation (s := takenUp s frame req rest) hc hcode hsnap] at h
      injection h with h
      rw [← h]
      exact nofun
    · rw [handle_passes_haltReason (s := takenUp s frame req rest) (passesChecks_of_emulated hc hcode hsnap) hr h]
      exact (reasonPastChecks_ne _).1

theorem PrivilegeSnapshot.eq_lower_paged_iff (snap : PrivilegeSnapshot) :
    snap = { prevPriv := .lower, xlate := .paged } ↔ snap.prevPriv = .lower ∧ snap.xlate = .paged := by
  cases snap
  simp

/-- Settles O32: the second check halts a lower privilege under paging, and any other snapshot passes it. -/
theorem translationCheck : Obligations.TranslationCheck := by
  intro s frame req rest code hs hr hc hcode
  rw [step_of_delivers hs, ne_eq, PrivilegeSnapshot.eq_lower_paged_iff]
  refine ⟨handle_translation (s := takenUp s frame req rest) hc hcode, fun hsnap t h => ?_⟩
  rw [handle_passes_haltReason (s := takenUp s frame req rest) (passesChecks_of_emulated hc hcode hsnap) hr h]
  exact (reasonPastChecks_ne _).2

/-! ### Cause, privilege and translation mode past the checks -/

theorem accessOf_request (i : Instr) (q : Request) (s : State) :
    accessOf i { s with request := q } = accessOf i s := by
  cases i <;> rfl

section
variable {s : State} {q : Request} (hpc : q.faultingPc = s.request.faultingPc)
include hpc

/-- A completed load reads nothing of the request but its program counter. -/
theorem loadDone_request (w : Width) (signed : Bool) (rd : RegIdx) (ea : Word) :
    loadDone w signed rd ea { s with request := q } = { loadDone w signed rd ea s with request := q } := by
  simp only [loadDone, resumeNext, respond, writeReg, hpc]
  cases w <;> rfl

/-- A completed store reads nothing of the request but its program counter. -/
theorem storeDone_request (w : Width) (ea v : Word) :
    storeDone w ea v { s with request := q } = { storeDone w ea v s with request := q } := by
  simp only [storeDone, resumeNext, respond, hpc]

theorem execDone_request (i : Instr) :
    execDone i { s with request := q } = { execDone i s with request := q } := by
  cases i
  case sb => exact storeDone_request hpc ..
  case sh => exact storeDone_request hpc ..
  case sw => exact storeDone_request hpc ..
  all_goals exact loadDone_request hpc ..

/-- An instruction reads nothing of the request but its program counter. -/
theorem exec_request {i : Instr} {t : State} (h : exec i s = .next t) :
    exec i { s with request := q } = .next { t with request := q } := by
  rcases exec_cases h with ⟨hover, rfl⟩ | ⟨hfits, hadmit, rfl⟩
  · exact exec_overflows (by rwa [accessOf_request])
  · rw [← execDone_request hpc]
    exact exec_admitted (by rwa [accessOf_request]) (by rw [accessOf_request]; exact hadmit)

/-- Two requests that pass the checks with one program counter and one word are handled alike. -/
theorem handle_request {t : State} (hpass : passesChecks s.request) (hpass' : passesChecks q)
    (hinstr : q.instr = s.request.instr) (h : handle s = .next t) :
    handle { s with request := q } = .next { t with request := q } := by
  cases hd : decode s.request.instr with
  | error r =>
    rw [handle_refused hpass hd] at h
    injection h with h
    rw [handle_refused (s := { s with request := q }) hpass' (by rw [hinstr, hd]), ← h]
    rfl
  | ok i =>
    rw [handle_decoded hpass hd] at h
    rw [handle_decoded (s := { s with request := q }) hpass' (by rw [hinstr, hd])]
    exact exec_request hpc h

end

/-- Settles O35: the two requests are taken up in states that differ in the request port alone, and are handled
alike. -/
theorem causeAndModeAreNotCrossChecked : Obligations.CauseAndModeAreNotCrossChecked := by
  intro s t frame req req' rest hs hpass hpass' hpc hinstr h
  rw [step_of_delivers hs] at h
  refine (step_of_delivers (s := { s with inbox := .trap frame req' :: rest }) ⟨rfl, hs.2⟩).trans ?_
  exact handle_request (s := takenUp s frame req rest) hpc hpass hpass' hinstr h

end Sys2Proof.Machine
end

section
/-! The interrupt path: which handler a code selects, and what a handler leaves (60_exceptions.md R153). -/

namespace Sys2Proof.Machine

open Sys2Proof.Claims

/-- A delivered interrupt takes the interrupt path in the state that has taken it up. -/
theorem step_interrupt {s : State} {frame : Option RegFile} {req : Request} {rest : List Input} {code : Word}
    (hs : delivers s frame req rest) (hc : req.cause = .interrupt code) :
    step s = .next (interruptPath code (takenUp s frame req rest)) := by
  rw [step_of_delivers hs]
  exact handle_interrupt (s := takenUp s frame req rest) hc

/-- Settles O36: the interrupt path's frame, and that it keeps memory canonical. -/
theorem interruptResumesAtTheTrappedPc : Obligations.InterruptResumesAtTheTrappedPc := by
  intro s frame req rest code hs hc
  obtain ⟨hhalted, hreason, hrequest, hresponse, hholes, hirq, hlog, hinbox⟩ :=
    interruptPath_frame code (takenUp s frame req rest)
  exact ⟨_, step_interrupt hs hc, hresponse, hhalted.trans hs.2, hreason, hlog, hrequest, hholes, hirq, hinbox,
    interruptPath_wf (s := takenUp s frame req rest)⟩

theorem handlerFor_of_selects {irq : IrqCapability} {code : Word} {h : Handler} (hsel : selects irq code h) :
    irq.handlerFor code = h := by
  rcases hsel with ⟨hn, before, after, htable, hbefore⟩ | ⟨hout, hdefault⟩
  · exact handlerFor_registered hn htable hbefore
  · rw [handlerFor_default hout, hdefault]

/-- A handler's register writes, made in order, change registers and nothing else. -/
theorem writeRegs_eq (regs : List (RegIdx × Word)) (s : State) :
    writeRegs regs s = { s with rf := regs.foldl (fun rf w => regsAfter rf w.1 w.2) s.rf } := by
  induction regs generalizing s with
  | nil => rfl
  | cons w regs ih => exact ih (writeReg w.1 w.2 s)

/-- The interrupt path through a handler whose semantics are given. -/
theorem interruptPath_given {s : State} {code : Word} {regs : List (RegIdx × Word)} {stores : List (Word × Byte)}
    (h : s.irq.handlerFor code = .given regs stores) :
    interruptPath code s = { s with
      rf := regs.foldl (fun rf w => regsAfter rf w.1 w.2) s.rf
      mem := s.mem.putAll stores
      response := some (.resume s.request.faultingPc) } := by
  rw [interruptPath, h, invoke, writeRegs_eq]
  rfl

/-- Settles O37: the selected handler is the one invoked, and `interruptPath_given` says what it leaves. -/
theorem interruptInvokesTheTableEntry : Obligations.InterruptInvokesTheTableEntry := by
  intro s frame req rest code regs stores hs hc hsel
  refine ⟨_, step_interrupt hs hc, ?_⟩
  rw [interruptPath_given (s := takenUp s frame req rest) (handlerFor_of_selects hsel)]
  exact ⟨rfl, rfl, rfl, rfl⟩

/-- The interrupt path through an unknown handler: a havoc of registers and memory. -/
theorem interruptPath_unknown {s : State} {code : Word} {id : Nat} (h : s.irq.handlerFor code = .unknown id) :
    interruptPath code s = { s with
      rf := Config.havocRegs (handlerCall id code s)
      mem := s.mem.putAll (Config.havocStores (handlerCall id code s))
      draws := s.draws + 1
      response := some (.resume s.request.faultingPc) } := by
  rw [interruptPath, h]
  rfl

/-- Settles O53: `interruptPath_unknown` at the selected handler, whose stores reach memory in order. -/
theorem unknownHandlerIsHavoc : Obligations.UnknownHandlerIsHavoc := by
  intro s frame req rest code id hs hc hsel call
  refine ⟨_, ?_, rfl, fun hm => ⟨Memory.wf_putAll hm _, storedInOrder_putAll hm _⟩⟩
  rw [step_interrupt hs hc, interruptPath_unknown (s := takenUp s frame req rest) (handlerFor_of_selects hsel)]
  rfl

end Sys2Proof.Machine
end

section
/-! How a transaction ends: the one response it has, and that a fail-stop has no side effect
(60_exceptions.md R151, R160, R161). -/

namespace Sys2Proof.Machine

open Sys2Proof.Claims

/-- Everything a delivered exception can do when it answers a next state: a fail-stop with no other effect, or a
completed instruction. -/
theorem step_exception_cases {s t : State} {frame : Option RegFile} {req : Request} {rest : List Input} {code : Word}
    (hs : delivers s frame req rest) (hc : req.cause = .exception code) (h : step s = .next t) :
    (∃ reason, t = afterHalt (takenUp s frame req rest) reason) ∨ ∃ i, t = execDone i (takenUp s frame req rest) := by
  rw [step_of_delivers hs] at h
  rcases handle_exception_cases (s := takenUp s frame req rest) hc h with hhalt | ⟨i, -, hdone, -, -⟩
  · exact .inl hhalt
  · exact .inr ⟨i, hdone⟩

/-- Settles O40: a completed instruction leaves the block running, so what halts is a fail-stop. -/
theorem haltHasNoSideEffect : Obligations.HaltHasNoSideEffect := by
  intro s t frame req rest code hs hc h ht
  rcases step_exception_cases hs hc h with hhalt | ⟨i, rfl⟩
  · exact hhalt
  · obtain ⟨hkept, -⟩ := execDone_spec i (takenUp s frame req rest)
    exact absurd ((hkept.trans hs.2).symm.trans ht) Bool.false_ne_true

/-- Settles O38: an interrupt resumes, an exception halts or completes when it has a next state, and a request that has
none is stuck. -/
theorem resumeAtTheNextPcOrHalt : Obligations.ResumeAtTheNextPcOrHalt := by
  intro s frame req rest hs
  rcases handle_next_or_stuck (takenUp s frame req rest) with ⟨t, ht⟩ | ⟨a, hstuck, ha, -⟩
  case inr => exact .inr ⟨a, (step_of_delivers hs).trans hstuck, ha⟩
  have hstep := (step_of_delivers hs).trans ht
  refine .inl ⟨t, hstep, ?_⟩
  cases hc : req.cause with
  | interrupt code =>
    rw [step_interrupt hs hc] at hstep
    injection hstep with hstep
    subst hstep
    obtain ⟨hhalted, -, -, hresponse, -⟩ := interruptPath_frame code (takenUp s frame req rest)
    exact .inr (.inl ⟨code, rfl, hhalted.trans hs.2, hresponse⟩)
  | exception code =>
    rcases step_exception_cases hs hc hstep with ⟨reason, rfl⟩ | ⟨i, rfl⟩
    · exact .inr (.inr ⟨code, rfl, rfl, rfl, rfl⟩)
    · obtain ⟨hhalted, -, hresponse, -⟩ := execDone_spec i (takenUp s frame req rest)
      exact .inl ⟨code, rfl, hhalted.trans hs.2, hresponse⟩

end Sys2Proof.Machine
end

section
/-! The two steps that meet no request: the reset input, from any state, and waiting
(70_reset_and_hazards.md R180, R181, R188). -/

namespace Sys2Proof.Machine

/-- Settles O43: the step is `applyReset`, which clears the halt and empties the response and memory ports. -/
theorem resetInputClearsTheHalt : Obligations.ResetInputClearsTheHalt :=
  fun _ _ hi => step_reset hi

/-- Settles O45: nothing is there to meet, and a running block then waits. -/
theorem idleBlockWaits : Obligations.IdleBlockWaits :=
  fun _ hi hh => step_idle hi hh

end Sys2Proof.Machine
end
